-- ==== Sys2Proof/Word.lean ====
section
/-! DEFINITION. The bus word, its bytes, and register indices (00_scope.md R7, R8, R14). -/

namespace Sys2Proof

/-- One bus data word; the host data width is 32 bits (00_scope.md R8). -/
abbrev Word := BitVec 32

/-- One byte of a byte-addressed bus (20_memory.md R55). -/
abbrev Byte := BitVec 8

/-- NREGS, the number of operand registers; fixed (00_scope.md R7). -/
abbrev NREGS : Nat := 16

/-- The index of an operand register, R0 … R15 (10_state.md R22). -/
abbrev RegIdx := Fin NREGS

end Sys2Proof
end

