-- ==== Sys2Proof/Config.lean ====
section
/-! DEFINITION. The parameters an NTE is built with and the values the spec leaves UNSPECIFIED
(00_scope.md R5, R6, R8, R9; 92_eei_decisions.md, OPEN parameters). -/

namespace Sys2Proof

/-- IRQ_ROUTE: where the platform takes the interrupt line (60_exceptions.md R149, D15, OPEN). -/
structure IrqRoute where
  line     : Nat
  priority : Nat
  vector   : Nat
  deriving DecidableEq, Repr

/-- The model arguments. NBITS must be a multiple of 32, so the field is NWORDS = NBITS/32
(00_scope.md R5, R6). -/
structure Config where
  nwords   : Nat
  base     : Nat
  irqRoute : IrqRoute
  deriving DecidableEq, Repr

namespace Config

/-- NBITS, the width in bits of a magnitude (00_scope.md R5). -/
def nbits (c : Config) : Nat := 32 * c.nwords

/-- What R5 and R8 ask of the parameters: 64 ≤ NBITS ≤ 8192 and BASE aligned to 0x8000. -/
abbrev wf (c : Config) : Prop := 2 ≤ c.nwords ∧ c.nwords ≤ 256 ∧ c.base % 0x8000 = 0

/-- The reference configuration, NBITS = 4096 (00_scope.md R9).
BASE and IRQ_ROUTE are platform parameters the spec leaves open. DESIGN CHOICE (log 2), unsafe. -/
def reference : Config := ⟨128, 0, ⟨0, 0, 0⟩⟩

/-- The n-th UNSPECIFIED word: a reset draw of an operand word (70_reset_and_hazards.md R170) or a
read while BUSY (20_memory.md R54). FREE VALUE with no body: every claim holds whatever it is
(log 4, log 5), safe. -/
opaque freeWord : Nat → Word

end Config

end Sys2Proof
end

