-- ==== Sys2Proof/Syntax.lean ====
section
/-! DEFINITION. The commands of the NTE, one constructor per row of opcode_table.json
(30_encoding.md R73), and the totient methods (R78). -/

namespace Sys2Proof

/-- The method field m (30_encoding.md R78): 0, 1 and the two unrecognised values, which are not
ill-formed. -/
inductive Method where
  | euler
  | carmichael
  | m2
  | m3
  deriving DecidableEq, Repr

/-- The value of a factor-range length field, len = cw[28:24] (30_encoding.md R71). -/
abbrev Len := Fin 32

/-- One command, its operands in encoding-field order (30_encoding.md R73, R80). -/
inductive Instr where
  | nop
  | mov (rd ra : RegIdx)
  | egcd (rd ra rb : RegIdx)
  | modinv (rd ra rb : RegIdx)
  | lcm (rd ra rb : RegIdx)
  | lcmfold (rd ra : RegIdx) (len : Len)
  | prod (rd ra : RegIdx) (len : Len)
  | phi (m : Method) (rd ra : RegIdx) (len : Len)
  | derivd (rd ra rb : RegIdx)
  | derivdf (m : Method) (rd ra rb : RegIdx) (len : Len)
  | modexp (rd ra rb rn : RegIdx)
  | modmul (rd ra rb rn : RegIdx)
  | montmul (rd ra rb rn : RegIdx)
  deriving DecidableEq, Repr

end Sys2Proof
end

