-- ==== Sys2Proof/Machine/State.lean ====
section
/-! DEFINITION. The state of the NTE as plain data, the turns of its two agents, why a step can
stop, and the state right after reset (10_state.md). -/

namespace Sys2Proof.Machine

open Sys2Proof

/-- An operand register: an NBITS-bit magnitude, held as the natural number it is (00_scope.md R10),
and a sign bit (10_state.md R22). -/
structure OpReg where
  mag  : Nat
  sign : Bool
  deriving DecidableEq, Repr

/-- R0 … R15; no alias, no bank, none hardwired (10_state.md R22). -/
abbrev RegFile := Vector OpReg NREGS

/-- The error codes 1 … 11 (60_exceptions.md R140). Code 0 is the absence of one, and 12 … 255 are
never produced. -/
inductive ErrCode where
  | invalidInput
  | invalidMethod
  | invalidExponent
  | notCoprime
  | emptySequence
  | lcmUndefined
  | zeroModulus
  | evenModulus
  | overflow
  | signedOperand
  | illegalCommand
  deriving DecidableEq, Repr

/-- The accepted command word and the copy of the operand registers taken with it (10_state.md R26). -/
structure Snapshot where
  cw   : Word
  regs : RegFile
  deriving DecidableEq, Repr

/-- The engine's phase. STATUS.BUSY shows it, so it is that bit's one home (10_state.md R26, log 13). -/
inductive Engine where
  | idle
  | busy (snap : Snapshot)
  deriving DecidableEq, Repr

/-- The width of a host access in bits; only 32 is served (20_memory.md R47). -/
inductive Width where
  | w8
  | w16
  | w32
  | w64
  deriving DecidableEq, Repr

/-- What a host access does. The data of a write that is not 32 bits wide is never looked at, so the
32-bit bus word stands for it (20_memory.md R47, log 16). -/
inductive BusOp where
  | read
  | write (data : Word)
  deriving DecidableEq, Repr

/-- One host access, at a bus address (00_scope.md R16). -/
structure Access where
  width : Width
  addr  : Nat
  op    : BusOp
  deriving DecidableEq, Repr

/-- The bus response (00_scope.md R16). -/
inductive Response where
  | okRead (data : Word)
  | okWrite
  | busErr
  deriving DecidableEq, Repr

/-- What the host does on BUSERR, the platform's concern: it traps, or it ignores the response
(60_exceptions.md R147, log 8). -/
inductive OnBusErr where
  | traps
  | ignores
  deriving DecidableEq, Repr

/-- One atomic turn: a host access, the engine's own step, or the platform's hardware reset
(10_state.md R21; 60_exceptions.md R150). -/
inductive Turn where
  | host (a : Access) (onErr : OnBusErr)
  | engine
  | hardReset
  deriving DecidableEq, Repr

/-- The NTE. `agenda`, `response` and `draws` are the model's own fields (log 6, log 15, log 4);
`config` holds the model arguments and never changes (log 1). -/
structure State where
  config   : Config
  regs     : RegFile
  engine   : Engine
  ie       : Bool
  cmd      : Word
  done     : Bool
  err      : Bool
  cmdOvr   : Bool
  winOvr   : Bool
  code     : Option ErrCode
  agenda   : List Turn
  response : Option Response
  draws    : Nat
  deriving DecidableEq, Repr

/-- Why the machine stops with a fault. -/
inductive Fault where
  /-- Raised by `hostStep` when the NTE answers BUSERR to a host access whose host traps on it
  (60_exceptions.md R147, "should treat it as a host fault"). The NTE's state is unchanged. Safe. -/
  | hostBusError (a : Access)
  /-- Raised by `hostStep` for an access outside [BASE, BASE + 0x8000): "a model that has the host take
  an access outside the map should treat it as a host fault" (60_exceptions.md R147). The NTE is not
  selected and gives no response for the host to ignore (log 9). Its state is unchanged. Safe. -/
  | outsideBlock (a : Access)
  deriving DecidableEq, Repr

/-- Why the machine refuses to go on. -/
inductive Refusal where
  /-- Raised by no arm of `exec`: every command has its meaning. Safe. -/
  | notModelled (mnemonic : String)
  /-- Raised by a meaning asked to complete a command while the engine is IDLE: the completion step
  is enabled only in BUSY (10_state.md R21), and `step` never asks it (log 10). Safe. -/
  | engineIdle
  deriving DecidableEq, Repr

/-- The NTE right after reset (10_state.md R37) in the reference configuration.
The magnitudes, UNSPECIFIED in the spec, are 0 here. DESIGN CHOICE (log 3), unsafe. -/
def State.reset : State where
  config   := Config.reference
  regs     := Vector.replicate NREGS ⟨0, false⟩
  engine   := .idle
  ie       := false
  cmd      := 0x00000000
  done     := false
  err      := false
  cmdOvr   := false
  winOvr   := false
  code     := none
  agenda   := []
  response := none
  draws    := 0

end Sys2Proof.Machine
end

