-- ==== Sys2Proof/Machine/Flags.lean ====
section
/-! DEFINITION. The control and status registers as words, the write-1-to-clear rule and the
interrupt line (10_state.md R27 – R34). -/

namespace Sys2Proof.Machine

open Sys2Proof

/-- STATUS.BUSY shows the engine's phase (10_state.md R26, R31). -/
def State.busy (s : State) : Bool :=
  match s.engine with
  | .idle => false
  | .busy _ => true

/-- ERRCODE.CODE of an outcome: 0 for success, else the number of 60_exceptions.md R140. -/
def codeNumber : Option ErrCode → Nat
  | none => 0
  | some .invalidInput => 1
  | some .invalidMethod => 2
  | some .invalidExponent => 3
  | some .notCoprime => 4
  | some .emptySequence => 5
  | some .lcmUndefined => 6
  | some .zeroModulus => 7
  | some .evenModulus => 8
  | some .overflow => 9
  | some .signedOperand => 10
  | some .illegalCommand => 11

/-- ID, ASCII "NTE1" (10_state.md R27). -/
def idWord : Word := 0x4E544531

/-- CFG: NWORDS in [15:0], NREGS in [23:16], VERSION = 1 in [31:24] (10_state.md R28). -/
def cfgWord (c : Config) : Word := BitVec.ofNat 32 (c.nwords + NREGS * 2 ^ 16 + 1 * 2 ^ 24)

/-- CTRL: IE in bit 0; SRST and the reserved bits read 0 (10_state.md R29). -/
def State.ctrlWord (s : State) : Word := BitVec.ofNat 32 s.ie.toNat

/-- STATUS: BUSY, DONE, ERR, CMD_OVR, WIN_OVR in bits 0 … 4; the reserved bits read 0 (10_state.md R31). -/
def State.statusWord (s : State) : Word :=
  BitVec.ofNat 32
    (s.busy.toNat + 2 * s.done.toNat + 4 * s.err.toNat + 8 * s.cmdOvr.toNat + 16 * s.winOvr.toNat)

/-- ERRCODE: CODE in [7:0], the rest reads 0 (10_state.md R32). -/
def State.errcodeWord (s : State) : Word := BitVec.ofNat 32 (codeNumber s.code)

/-- The sign bits of R0 … R(n−1) as a number, bit k being R[k].sign. -/
def signBits (regs : RegFile) : Nat → Nat
  | 0 => 0
  | n + 1 => signBits regs n + (regs.get (Fin.ofNat NREGS n)).sign.toNat * 2 ^ n

/-- SIGN: bit k reads R[k].sign, bits [31:16] read 0 (10_state.md R33). -/
def State.signWord (s : State) : Word := BitVec.ofNat 32 (signBits s.regs NREGS)

/-- The interrupt line, level-sensitive (10_state.md R34; 60_exceptions.md R149). -/
def State.irq (s : State) : Bool := s.ie && s.done

/-- Where the platform takes the line while it is 1 (60_exceptions.md R149, log 23). -/
def State.irqRequest (s : State) : Option IrqRoute := if s.irq then some s.config.irqRoute else none

/-- A field after a STATUS write whose bit for it is `one`: written 1, it clears; written 0, it stays
(10_state.md R31). -/
def w1c (field one : Bool) : Bool := field && !one

/-- A STATUS write: bits [4:1] are W1C; bit 0 and bits [31:5] are ignored (10_state.md R31). -/
def State.writeStatus (s : State) (w : Word) : State :=
  { s with
    done   := w1c s.done (w.getLsbD 1)
    err    := w1c s.err (w.getLsbD 2)
    cmdOvr := w1c s.cmdOvr (w.getLsbD 3)
    winOvr := w1c s.winOvr (w.getLsbD 4) }

end Sys2Proof.Machine
end

