-- ==== Sys2Proof/WellFormed.lean ====
section
/-! DEFINITION. The checks on a command that its field widths do not already make: 30_encoding.md
R75 items 4 and 5. -/

namespace Sys2Proof

/-- R75 item 5 and R77: a factor range lies inside R0 … R15. -/
def rangeFits (start : RegIdx) (len : Len) : Bool := start.val + len.val ≤ NREGS

/-- The command meets the constraints of 30_encoding.md R75 items 4 and 5. -/
def Instr.wellFormed : Instr → Bool
  | .nop => true
  | .mov _ _ => true
  | .egcd rd _ _ => rd.val ≤ 13
  | .modinv _ _ _ => true
  | .lcm _ _ _ => true
  | .lcmfold _ ra len => rangeFits ra len
  | .prod _ ra len => rangeFits ra len
  | .phi _ _ ra len => rangeFits ra len
  | .derivd _ _ _ => true
  | .derivdf _ _ _ rb len => rangeFits rb len
  | .modexp _ _ _ _ => true
  | .modmul _ _ _ _ => true
  | .montmul _ _ _ _ => true

end Sys2Proof
end

