-- ==== Sys2Proof/Decode.lean ====
section
/-! DEFINITION. Decoding a command word, encoding a command, and the opcode table as mask and match
rows (30_encoding.md R71 – R79, R82). -/

namespace Sys2Proof

/-- `v[hi:lo]` as a natural number (00_scope.md R14). -/
def bits (v hi lo : Nat) : Nat := v / 2 ^ lo % 2 ^ (hi + 1 - lo)

/-- Why a word is ill-formed: the five items of 30_encoding.md R75, in order, and a byte string too
short to hold a word. -/
inductive DecodeError where
  | reservedBits
  | reservedOpcode
  | mustBeZero
  | egcdDestination
  | factorRange
  | truncated
  deriving DecidableEq, Repr

/-- The fields of a command word as naturals, read by zero extension (30_encoding.md R71, R72). -/
structure Fields where
  op  : Nat
  m   : Nat
  rd  : Nat
  ra  : Nat
  rb  : Nat
  rn  : Nat
  len : Nat
  f   : Nat
  top : Nat
  deriving DecidableEq, Repr

/-- The field positions of 30_encoding.md R71. -/
def fieldsOf (w : Word) : Fields where
  op  := bits w.toNat 5 0
  m   := bits w.toNat 7 6
  rd  := bits w.toNat 11 8
  ra  := bits w.toNat 15 12
  rb  := bits w.toNat 19 16
  rn  := bits w.toNat 23 20
  len := bits w.toNat 28 24
  f   := bits w.toNat 29 29
  top := bits w.toNat 31 30

/-- The register a field names (30_encoding.md R72). -/
def regOf (n : Nat) : RegIdx := Fin.ofNat NREGS n

/-- The length a field gives (30_encoding.md R72). -/
def lenOf (n : Nat) : Len := Fin.ofNat 32 n

/-- The method a field selects (30_encoding.md R78). -/
def methodOf : Nat → Method
  | 0 => .euler
  | 1 => .carmichael
  | 2 => .m2
  | _ => .m3

/-- The method's field value (30_encoding.md R78). -/
def Method.code : Method → Nat
  | .euler => 0
  | .carmichael => 1
  | .m2 => 2
  | .m3 => 3

/-- R75 item 3: the command stands if its must-be-zero fields are zero. -/
def ifZero (zero : Bool) (i : Instr) : Except DecodeError Instr :=
  if zero then .ok i else .error .mustBeZero

/-- R75 items 4 and 5, asked of a command whose must-be-zero fields are zero. -/
def ifFits (zero fits : Bool) (why : DecodeError) (i : Instr) : Except DecodeError Instr :=
  if zero then (if fits then .ok i else .error why) else .error .mustBeZero

/-- The opcode map of 30_encoding.md R73 with the must-be-zero fields of R74. -/
def decodeFields (c : Fields) : Except DecodeError Instr :=
  let rd := regOf c.rd
  let ra := regOf c.ra
  let rb := regOf c.rb
  let rn := regOf c.rn
  let len := lenOf c.len
  if c.top ≠ 0 then .error .reservedBits else
  match c.op with
  | 0x00 => ifZero (c.m = 0 ∧ c.rd = 0 ∧ c.ra = 0 ∧ c.rb = 0 ∧ c.rn = 0 ∧ c.len = 0 ∧ c.f = 0) .nop
  | 0x01 => ifZero (c.m = 0 ∧ c.rb = 0 ∧ c.rn = 0 ∧ c.len = 0 ∧ c.f = 0) (.mov rd ra)
  | 0x02 => ifFits (c.m = 0 ∧ c.rn = 0 ∧ c.len = 0 ∧ c.f = 0) (rd.val ≤ 13) .egcdDestination (.egcd rd ra rb)
  | 0x03 => ifZero (c.m = 0 ∧ c.rn = 0 ∧ c.len = 0 ∧ c.f = 0) (.modinv rd ra rb)
  | 0x04 => ifZero (c.m = 0 ∧ c.rn = 0 ∧ c.len = 0 ∧ c.f = 0) (.lcm rd ra rb)
  | 0x05 => ifFits (c.m = 0 ∧ c.rb = 0 ∧ c.rn = 0 ∧ c.f = 0) (rangeFits ra len) .factorRange (.lcmfold rd ra len)
  | 0x06 => ifFits (c.m = 0 ∧ c.rb = 0 ∧ c.rn = 0 ∧ c.f = 0) (rangeFits ra len) .factorRange (.prod rd ra len)
  | 0x07 => ifFits (c.rb = 0 ∧ c.rn = 0 ∧ c.f = 0) (rangeFits ra len) .factorRange (.phi (methodOf c.m) rd ra len)
  | 0x08 =>
    if c.f = 0 then ifZero (c.m = 0 ∧ c.rn = 0 ∧ c.len = 0) (.derivd rd ra rb)
    else ifFits (c.rn = 0) (rangeFits rb len) .factorRange (.derivdf (methodOf c.m) rd ra rb len)
  | 0x09 => ifZero (c.m = 0 ∧ c.len = 0 ∧ c.f = 0) (.modexp rd ra rb rn)
  | 0x0A => ifZero (c.m = 0 ∧ c.len = 0 ∧ c.f = 0) (.modmul rd ra rb rn)
  | 0x0B => ifZero (c.m = 0 ∧ c.len = 0 ∧ c.f = 0) (.montmul rd ra rb rn)
  | _ => .error .reservedOpcode

/-- Decoding is total: every word is one command or ill-formed (30_encoding.md R82). -/
def decode (w : Word) : Except DecodeError Instr := decodeFields (fieldsOf w)

/-- Byte b of a word: data bits [8b+7 : 8b] (20_memory.md R55). -/
def wordByte (w : Word) (b : Nat) : Byte := BitVec.ofNat 8 (bits w.toNat (8 * b + 7) (8 * b))

/-- The word four bytes at rising addresses make, little-endian (20_memory.md R55). -/
def wordOfBytes (b0 b1 b2 b3 : Byte) : Word :=
  BitVec.ofNat 32 (b0.toNat + b1.toNat * 2 ^ 8 + b2.toNat * 2 ^ 16 + b3.toNat * 2 ^ 24)

/-- A command word as a byte-addressed platform lays it out, and the bytes after it (R55, R71). -/
def decodeBytes : List Byte → Except DecodeError (Instr × List Byte)
  | b0 :: b1 :: b2 :: b3 :: rest =>
    match decode (wordOfBytes b0 b1 b2 b3) with
    | .ok i => .ok (i, rest)
    | .error e => .error e
  | _ => .error .truncated

/-- The host's reading of an opcode-table row: its word laid out as bytes and given to the decoder. -/
def decodeTableWord (nbits w : Nat) : Option Instr :=
  if nbits ≤ 32 then
    let x : Word := BitVec.ofNat 32 (w % 2 ^ nbits)
    match decodeBytes [wordByte x 0, wordByte x 1, wordByte x 2, wordByte x 3] with
    | .ok (i, _) => some i
    | .error _ => none
  else none

/-- A word from its fields, `00 f lllll nnnn bbbb aaaa dddd mm oooooo` (30_encoding.md R71). -/
def pack (op m : Nat) (rd ra rb rn : RegIdx) (len : Len) (f : Nat) : Word :=
  BitVec.ofNat 32 (op + m * 2 ^ 6 + rd.val * 2 ^ 8 + ra.val * 2 ^ 12 + rb.val * 2 ^ 16 + rn.val * 2 ^ 20
    + len.val * 2 ^ 24 + f * 2 ^ 29)

/-- The command's word (30_encoding.md R71, R73, R74). -/
def encode : Instr → Word
  | .nop => pack 0x00 0 0 0 0 0 0 0
  | .mov rd ra => pack 0x01 0 rd ra 0 0 0 0
  | .egcd rd ra rb => pack 0x02 0 rd ra rb 0 0 0
  | .modinv rd ra rb => pack 0x03 0 rd ra rb 0 0 0
  | .lcm rd ra rb => pack 0x04 0 rd ra rb 0 0 0
  | .lcmfold rd ra len => pack 0x05 0 rd ra 0 0 len 0
  | .prod rd ra len => pack 0x06 0 rd ra 0 0 len 0
  | .phi m rd ra len => pack 0x07 m.code rd ra 0 0 len 0
  | .derivd rd ra rb => pack 0x08 0 rd ra rb 0 0 0
  | .derivdf m rd ra rb len => pack 0x08 m.code rd ra rb 0 len 1
  | .modexp rd ra rb rn => pack 0x09 0 rd ra rb rn 0 0
  | .modmul rd ra rb rn => pack 0x0A 0 rd ra rb rn 0 0
  | .montmul rd ra rb rn => pack 0x0B 0 rd ra rb rn 0 0

/-- The instruction whose row of opcode_table.json a command belongs to. -/
inductive Opcode where
  | nop | mov | egcd | modinv | lcm | lcmfold | prod | phi | derivd | derivdf | modexp | modmul | montmul
  deriving DecidableEq, Repr

/-- One row of opcode_table.json: a word belongs to the row when `word &&& mask = pattern`. -/
structure OpcodeRow where
  opcode  : Opcode
  pattern : Word
  mask    : Word
  deriving DecidableEq, Repr

/-- opcode_table.json, row by row, its match and mask columns as printed. -/
def opcodeTable : List OpcodeRow := [
  ⟨.nop, 0x00000000, 0xFFFFFFFF⟩,
  ⟨.mov, 0x00000001, 0xFFFF00FF⟩,
  ⟨.egcd, 0x00000002, 0xFFF000FF⟩,
  ⟨.modinv, 0x00000003, 0xFFF000FF⟩,
  ⟨.lcm, 0x00000004, 0xFFF000FF⟩,
  ⟨.lcmfold, 0x00000005, 0xE0FF00FF⟩,
  ⟨.prod, 0x00000006, 0xE0FF00FF⟩,
  ⟨.phi, 0x00000007, 0xE0FF003F⟩,
  ⟨.derivd, 0x00000008, 0xFFF000FF⟩,
  ⟨.derivdf, 0x20000008, 0xE0F0003F⟩,
  ⟨.modexp, 0x00000009, 0xFF0000FF⟩,
  ⟨.modmul, 0x0000000A, 0xFF0000FF⟩,
  ⟨.montmul, 0x0000000B, 0xFF0000FF⟩]

/-- The table row of a command. -/
def Instr.opcode : Instr → Opcode
  | .nop => .nop
  | .mov _ _ => .mov
  | .egcd _ _ _ => .egcd
  | .modinv _ _ _ => .modinv
  | .lcm _ _ _ => .lcm
  | .lcmfold _ _ _ => .lcmfold
  | .prod _ _ _ => .prod
  | .phi _ _ _ _ => .phi
  | .derivd _ _ _ => .derivd
  | .derivdf _ _ _ _ _ => .derivdf
  | .modexp _ _ _ _ => .modexp
  | .modmul _ _ _ _ => .modmul
  | .montmul _ _ _ _ => .montmul

end Sys2Proof
end

