-- ==== Sys2Proof/Machine/Operands.lean ====
section
/-! DEFINITION. Operand registers: their parts, their words, factor ranges, and the registers each
command reads as numbers (10_state.md R22 – R24; 20_memory.md R49; 60_exceptions.md R144). -/

namespace Sys2Proof.Machine

open Sys2Proof

/-- The value (−1)^sign · mag (10_state.md R23). -/
def OpReg.value (r : OpReg) : Int := if r.sign then -(r.mag : Int) else (r.mag : Int)

/-- `R[k] <- v`: mag becomes |v|, sign 1 iff v < 0 (00_scope.md R15). -/
def OpReg.ofInt (v : Int) : OpReg := ⟨v.natAbs, decide (v < 0)⟩

/-- `R[k] <- v` for a natural v (00_scope.md R15). -/
def OpReg.ofNat (v : Nat) : OpReg := ⟨v, false⟩

/-- Word i of a magnitude, bits [32i+31 : 32i] (20_memory.md R49). -/
def magWord (mag i : Nat) : Word := BitVec.ofNat 32 (mag / 2 ^ (32 * i))

/-- The magnitude with word i replaced by w, the other words unchanged (20_memory.md R51). -/
def setMagWord (mag i : Nat) (w : Word) : Nat :=
  mag / 2 ^ (32 * (i + 1)) * 2 ^ (32 * (i + 1)) + w.toNat * 2 ^ (32 * i) + mag % 2 ^ (32 * i)

/-- Register k (00_scope.md R15). -/
def RegFile.read (r : RegFile) (k : RegIdx) : OpReg := r.get k

/-- The register file with register k written. -/
def RegFile.write (r : RegFile) (k : RegIdx) (v : OpReg) : RegFile := r.set k.val v k.isLt

/-- R[k] read as a number, once the common checks have found its sign 0. -/
def RegFile.num (r : RegFile) (k : RegIdx) : Nat := (r.read k).mag

/-- The factor range (start, len): start, start+1, … in increasing order (30_encoding.md R77). -/
def rangeRegs (start : RegIdx) (len : Len) : List RegIdx :=
  (List.range len.val).map fun j => Fin.ofNat NREGS (start.val + j)

/-- The values of a factor range. -/
def RegFile.rangeNums (r : RegFile) (start : RegIdx) (len : Len) : List Nat :=
  (rangeRegs start len).map r.num

/-- The registers a command reads as numbers, in its operand order (60_exceptions.md R144). -/
def numericRegs : Instr → List RegIdx
  | .nop => []
  | .mov _ _ => []
  | .egcd _ ra rb => [ra, rb]
  | .modinv _ ra rb => [ra, rb]
  | .lcm _ ra rb => [ra, rb]
  | .lcmfold _ ra len => rangeRegs ra len
  | .prod _ ra len => rangeRegs ra len
  | .phi _ _ ra len => rangeRegs ra len
  | .derivd _ ra rb => [ra, rb]
  | .derivdf _ _ ra rb len => ra :: rangeRegs rb len
  | .modexp _ ra rb rn => [ra, rb, rn]
  | .modmul _ ra rb rn => [ra, rb, rn]
  | .montmul _ ra rb rn => [ra, rb, rn]

/-- The registers a command's success writes: one, or three for EGCD (60_exceptions.md R141;
30_encoding.md R79). -/
def destRegs : Instr → List RegIdx
  | .nop => []
  | .mov rd _ => [rd]
  | .egcd rd _ _ => [rd, rd + 1, rd + 2]
  | .modinv rd _ _ => [rd]
  | .lcm rd _ _ => [rd]
  | .lcmfold rd _ _ => [rd]
  | .prod rd _ _ => [rd]
  | .phi _ rd _ _ => [rd]
  | .derivd rd _ _ => [rd]
  | .derivdf _ rd _ _ _ => [rd]
  | .modexp rd _ _ _ => [rd]
  | .modmul rd _ _ _ => [rd]
  | .montmul rd _ _ _ => [rd]

/-- Some register the command reads as a number has sign 1. -/
def readsSigned (regs : RegFile) (i : Instr) : Bool := (numericRegs i).any fun k => (regs.read k).sign

/-- The common checks every command makes before its own: IllegalCommand, then SignedOperand
(60_exceptions.md R144). -/
def commonChecks (regs : RegFile) (i : Instr) : Option ErrCode :=
  if !i.wellFormed then some .illegalCommand
  else if readsSigned regs i then some .signedOperand
  else none

end Sys2Proof.Machine
end

