-- ==== Sys2Proof/Machine/Ops.lean ====
section
/-! DEFINITION. The operations every command and every access goes through: acceptance, the
completion step with its two outcomes, reset, and the free draws (20_memory.md R52;
60_exceptions.md R141 – R143; 70_reset_and_hazards.md R170). -/

namespace Sys2Proof.Machine

open Sys2Proof

/-- One deferred register write (00_scope.md R15). -/
abbrev Write := RegIdx × OpReg

/-- A command's outcome: `Ok(writes)` or `Err(code)` (60_exceptions.md R141). -/
abbrev CmdResult := Except ErrCode (List Write)

/-- A new value does not fit an operand register: v ≥ 2^NBITS, that is, a bit of it stands at NBITS or
above (00_scope.md R10; `Laws.overflows_eq_true`). -/
def overflows (nbits v : Nat) : Bool := v >>> nbits != 0

/-- Every deferred write of a command, in order (60_exceptions.md R141). -/
def applyWrites : RegFile → List Write → RegFile
  | r, [] => r
  | r, (k, v) :: ws => applyWrites (r.write k v) ws

/-- Acceptance of a command word; it decodes nothing and leaves ERR and ERRCODE alone
(20_memory.md R52). -/
def State.accept (s : State) (w : Word) : State :=
  { s with cmd := w, engine := .busy ⟨w, s.regs⟩, done := false }

/-- The completion step for `Ok(writes)` (60_exceptions.md R142). -/
def State.completeOk (s : State) (writes : List Write) : State :=
  { s with regs := applyWrites s.regs writes, code := none, engine := .idle, done := true }

/-- The completion step for `Err(code)`: this machine's exception entry. It writes no register,
saves nothing beyond ERRCODE, changes no mode and sends control nowhere (60_exceptions.md R143). -/
def State.completeErr (s : State) (e : ErrCode) : State :=
  { s with code := some e, err := true, engine := .idle, done := true }

/-- The completion step for an outcome (60_exceptions.md R141 – R143). -/
def State.complete (s : State) : CmdResult → State
  | .ok writes => s.completeOk writes
  | .error e => s.completeErr e

/-- The outcome of a command on a snapshot: the common checks, then its own rule
(60_exceptions.md R141, R144, R146). -/
def cmdResult (i : Instr) (own : RegFile → CmdResult) (regs : RegFile) : CmdResult :=
  match commonChecks regs i with
  | some e => .error e
  | none => own regs

/-- The completion step of command `i`, whose own rule is `own`. It is enabled only while BUSY
(10_state.md R21, log 10). -/
def runCommand (i : Instr) (own : RegFile → CmdResult) (s : State) :
    Host.Outcome State Fault Refusal :=
  match s.engine with
  | .busy snap => .next (s.complete (cmdResult i own snap.regs))
  | .idle => .refused .engineIdle

/-- The completion step of an ill-formed word (30_encoding.md R75, R76). -/
def State.completeIllegal (s : State) : State := s.completeErr .illegalCommand

/-- A magnitude of n words drawn freely, word j being draw number `start + j`
(70_reset_and_hazards.md R170, log 4). -/
def drawMag (start : Nat) : Nat → Nat
  | 0 => 0
  | n + 1 => drawMag start n + (Config.freeWord (start + n)).toNat * 2 ^ (32 * n)

/-- The operand registers after a reset: every magnitude word a draw of its own, every sign 0
(10_state.md R24, R37). -/
def drawRegs (nwords start : Nat) : RegFile :=
  Vector.ofFn fun k => ⟨drawMag (start + k.val * nwords) nwords, false⟩

/-- A reset, hard or soft, in either phase: every piece of state at the value of 10_state.md R37, a
running command abandoned (70_reset_and_hazards.md R170, R171, R172). The model's own agenda and
response are not NTE state and stay (log 15, log 25). -/
def State.resetAll (s : State) : State :=
  { s with
    regs   := drawRegs s.config.nwords s.draws
    engine := .idle
    ie     := false
    cmd    := 0x00000000
    done   := false
    err    := false
    cmdOvr := false
    winOvr := false
    code   := none
    draws  := s.draws + NREGS * s.config.nwords }

/-- A CTRL write: SRST = 1 is a soft reset and discards the rest of the word; otherwise bit 0 is IE
(10_state.md R29; 70_reset_and_hazards.md R171). -/
def State.writeCtrl (s : State) (w : Word) : State :=
  if w.getLsbD 1 then s.resetAll else { s with ie := w.getLsbD 0 }

/-- A CMD write: acceptance while IDLE, dropped with CMD_OVR while BUSY (20_memory.md R52). -/
def State.writeCmd (s : State) (w : Word) : State :=
  if s.busy then { s with cmdOvr := true } else s.accept w

/-- A write of word i of R[k]'s window: while IDLE it replaces the word and clears the sign; while
BUSY it is dropped with WIN_OVR (20_memory.md R51, R53). -/
def State.writeWindow (s : State) (k : RegIdx) (i : Nat) (w : Word) : State :=
  if s.busy then { s with winOvr := true }
  else { s with regs := s.regs.write k ⟨setMagWord (s.regs.read k).mag i w, false⟩ }

/-- One UNSPECIFIED word, drawn afresh (20_memory.md R54, R57, log 5). -/
def State.draw (s : State) : State × Word :=
  ({ s with draws := s.draws + 1 }, Config.freeWord s.draws)

end Sys2Proof.Machine
end

