-- ==== Sys2Proof/Machine/Bus.lean ====
section
/-! DEFINITION. The host's accesses: the register map, reads, writes, bus responses
(20_memory.md R46 – R57; 60_exceptions.md R147). -/

namespace Sys2Proof.Machine

open Sys2Proof

/-- The seven control and status registers (10_state.md R27 – R33). -/
inductive Csr where
  | id
  | cfg
  | ctrl
  | cmd
  | status
  | errcode
  | sign
  deriving DecidableEq, Repr

/-- What an offset addresses. -/
inductive Target where
  | csr (c : Csr)
  | window (k : RegIdx) (i : Nat)
  deriving DecidableEq, Repr

/-- The size of the register block (20_memory.md R46). -/
abbrev blockSize : Nat := 0x8000

/-- The register map (20_memory.md R46, R49). `none` is a misaligned offset (R47), a reserved one
(R48), or a word i ≥ NWORDS (R50). -/
def targetOf (nwords off : Nat) : Option Target :=
  if off % 4 ≠ 0 then none
  else if off = 0x0000 then some (.csr .id)
  else if off = 0x0004 then some (.csr .cfg)
  else if off = 0x0008 then some (.csr .ctrl)
  else if off = 0x000C then some (.csr .cmd)
  else if off = 0x0010 then some (.csr .status)
  else if off = 0x0014 then some (.csr .errcode)
  else if off = 0x0018 then some (.csr .sign)
  else if 0x1000 ≤ off ∧ off < 0x5000 then
    let k := (off - 0x1000) / 0x400
    let i := (off - 0x1000) % 0x400 / 4
    if i < nwords then some (.window (Fin.ofNat NREGS k) i) else none
  else none

/-- The offset of word i of R[k]'s window (20_memory.md R49). -/
def windowOffset (k : RegIdx) (i : Nat) : Nat := 0x1000 + 0x400 * k.val + 4 * i

/-- The offset of a control and status register (20_memory.md R46). -/
def Csr.offset : Csr → Nat
  | .id => 0x0000
  | .cfg => 0x0004
  | .ctrl => 0x0008
  | .cmd => 0x000C
  | .status => 0x0010
  | .errcode => 0x0014
  | .sign => 0x0018

/-- The word a CSR reads, where the read is exact (10_state.md R27 – R33). -/
def State.csrWord (s : State) : Csr → Word
  | .id => idWord
  | .cfg => cfgWord s.config
  | .ctrl => s.ctrlWord
  | .cmd => s.cmd
  | .status => s.statusWord
  | .errcode => s.errcodeWord
  | .sign => s.signWord

/-- A read: exact, but for window and SIGN reads while BUSY, which draw (20_memory.md R54, R57). -/
def State.readTarget (s : State) : Target → State × Word
  | .csr .sign => if s.busy then s.draw else (s, s.signWord)
  | .csr c => (s, s.csrWord c)
  | .window k i => if s.busy then s.draw else (s, magWord (s.regs.read k).mag i)

/-- A write; the read-only registers ignore it (10_state.md R27 – R33; 20_memory.md R51 – R53, R56). -/
def State.writeTarget (s : State) (w : Word) : Target → State
  | .csr .id => s
  | .csr .cfg => s
  | .csr .ctrl => s.writeCtrl w
  | .csr .cmd => s.writeCmd w
  | .csr .status => s.writeStatus w
  | .csr .errcode => s
  | .csr .sign => s
  | .window k i => s.writeWindow k i w

/-- A host access at an offset of the block, with its response. BUSERR changes nothing
(20_memory.md R47, R48, R50; 60_exceptions.md R147). -/
def State.busAccess (s : State) (width : Width) (off : Nat) (op : BusOp) : State × Response :=
  match width, targetOf s.config.nwords off, op with
  | .w32, some t, .read =>
    match s.readTarget t with
    | (s', w) => (s', .okRead w)
  | .w32, some t, .write w => (s.writeTarget w t, .okWrite)
  | _, _, _ => (s, .busErr)

/-- The offset of a bus address, if the block is selected by it (00_scope.md R8, R16). -/
def blockOffset (c : Config) (addr : Nat) : Option Nat :=
  if c.base ≤ addr ∧ addr < c.base + blockSize then some (addr - c.base) else none

/-- The host's turn: one atomic access. Outside the block it is a host fault (60_exceptions.md R147,
log 9). A BUSERR is a host fault where the host traps on it, and otherwise only a response (R147,
log 8). -/
def hostStep (a : Access) (onErr : OnBusErr) (s : State) : Host.Outcome State Fault Refusal :=
  match blockOffset s.config a.addr with
  | none => .fault (.outsideBlock a)
  | some off =>
    match s.busAccess a.width off a.op with
    | (s', resp) =>
      if resp = .busErr ∧ onErr = .traps then .fault (.hostBusError a)
      else .next { s' with response := some resp }

/-- The platform's hardware reset (70_reset_and_hazards.md R170). -/
def hardResetStep (s : State) : Host.Outcome State Fault Refusal := .next s.resetAll

end Sys2Proof.Machine
end

