-- ==== Sys2Proof/Machine/Control.lean ====
section
/-! DEFINITION. The engine-control commands NOP and MOV (43_engine_control.md). -/

namespace Sys2Proof.Machine

open Sys2Proof

/-- NOP writes no register (43_engine_control.md R130). -/
def execNop (s : State) : Host.Outcome State Fault Refusal :=
  runCommand .nop (fun _ => .ok []) s

/-- MOV copies magnitude and sign raw, with no SignedOperand check (43_engine_control.md R131). -/
def execMov (rd ra : RegIdx) (s : State) : Host.Outcome State Fault Refusal :=
  runCommand (.mov rd ra) (fun regs => .ok [(rd, regs.read ra)]) s

end Sys2Proof.Machine
end

