-- ==== Sys2Proof/Machine/Kernel.lean ====
section
/-! DEFINITION. The Number Theory Kernel: the egcd recurrence and the commands EGCD, MODINV and LCM
(40_kernel.md; 00_scope.md R11 – R13). -/

namespace Sys2Proof.Machine

open Sys2Proof

/-- `emod(x, m)`, the residue of an integer in [0, m) for m > 0 (00_scope.md R12). -/
def emod (x : Int) (m : Nat) : Nat := (x % (m : Int)).toNat

/-- The recurrence of 40_kernel.md R100 run for at most `fuel` calls. -/
def egcdFuel : Nat → Nat → Nat → Nat × Int × Int
  | 0, _, b => (b, 0, 1)
  | fuel + 1, a, b =>
    if a = 0 then (b, 0, 1)
    else
      match egcdFuel fuel (b % a) a with
      | (g, v', u') => (g, u' - ((b / a : Nat) : Int) * v', v')

/-- `egcd(a, b)` = (g, u, v) (40_kernel.md R100). The first argument falls at every call, so `a`
calls are enough; `Laws.egcd_rec` shows the recurrence. -/
def egcd (a b : Nat) : Nat × Int × Int := egcdFuel a a b

/-- The loop of 40_kernel.md R100 run at most `fuel` times, on (r0, r1, s0, s1, t0, t1). -/
def egcdIter : Nat → Nat → Nat → Int → Int → Int → Int → Nat × Int × Int
  | 0, r0, _, s0, _, t0, _ => (r0, t0, s0)
  | fuel + 1, r0, r1, s0, s1, t0, t1 =>
    if r1 = 0 then (r0, t0, s0)
    else
      egcdIter fuel r1 (r0 % r1) s1 (s0 - ((r0 / r1 : Nat) : Int) * s1) t1 (t0 - ((r0 / r1 : Nat) : Int) * t1)

/-- The iterative form of 40_kernel.md R100. No command uses it: the recurrence governs. -/
def egcdLoop (a b : Nat) : Nat × Int × Int := egcdIter a b a 1 0 0 1

/-- The residue of u for the inverse of a modulo m, NotCoprime unless gcd(a, m) = 1
(40_kernel.md R102; 41_fold_derivation.md R116). -/
def inverseMod (a m : Nat) : Except ErrCode Nat :=
  match egcd a m with
  | (g, u, _) => if g ≠ 1 then .error .notCoprime else .ok (emod u m)

/-- EGCD's own rule (40_kernel.md R101). -/
def egcdOwn (nbits : Nat) (rd ra rb : RegIdx) (regs : RegFile) : CmdResult :=
  match egcd (regs.num ra) (regs.num rb) with
  | (g, u, v) =>
    if overflows nbits u.natAbs || overflows nbits v.natAbs then .error .overflow
    else .ok [(rd, OpReg.ofNat g), (rd + 1, OpReg.ofInt u), (rd + 2, OpReg.ofInt v)]

/-- MODINV's own rule: NotCoprime, then ZeroModulus (40_kernel.md R102; 90_conflicts.md C1, C2). -/
def modinvOwn (rd ra rb : RegIdx) (regs : RegFile) : CmdResult :=
  match inverseMod (regs.num ra) (regs.num rb) with
  | .error e => .error e
  | .ok d => if regs.num rb = 0 then .error .zeroModulus else .ok [(rd, OpReg.ofNat d)]

/-- One lcm, LcmUndefined for 0 and 0 (40_kernel.md R103; 41_fold_derivation.md R113 `lcmchk`). -/
def lcmChecked (x y : Nat) : Except ErrCode Nat :=
  if Nat.gcd x y = 0 then .error .lcmUndefined else .ok (x * y / Nat.gcd x y)

/-- LCM's own rule: LcmUndefined, then Overflow (40_kernel.md R103). -/
def lcmOwn (nbits : Nat) (rd ra rb : RegIdx) (regs : RegFile) : CmdResult :=
  match lcmChecked (regs.num ra) (regs.num rb) with
  | .error e => .error e
  | .ok l => if overflows nbits l then .error .overflow else .ok [(rd, OpReg.ofNat l)]

/-- EGCD (40_kernel.md R101). -/
def execEgcd (rd ra rb : RegIdx) (s : State) : Host.Outcome State Fault Refusal :=
  runCommand (.egcd rd ra rb) (egcdOwn s.config.nbits rd ra rb) s

/-- MODINV (40_kernel.md R102). -/
def execModinv (rd ra rb : RegIdx) (s : State) : Host.Outcome State Fault Refusal :=
  runCommand (.modinv rd ra rb) (modinvOwn rd ra rb) s

/-- LCM (40_kernel.md R103). -/
def execLcm (rd ra rb : RegIdx) (s : State) : Host.Outcome State Fault Refusal :=
  runCommand (.lcm rd ra rb) (lcmOwn s.config.nbits rd ra rb) s

end Sys2Proof.Machine
end

