-- ==== Sys2Proof/Machine/Derivation.lean ====
section
/-! DEFINITION. The folds and the RSA parameter derivation: LCMFOLD, PROD, PHI, DERIVD and DERIVDF
(41_fold_derivation.md). -/

namespace Sys2Proof.Machine

open Sys2Proof

/-- `foldl` with the accumulator's Overflow test at every step; an error of `op` stops the fold first
(41_fold_derivation.md R110). -/
def foldChecked (nbits : Nat) (op : Nat → Nat → Except ErrCode Nat) : Nat → List Nat → Except ErrCode Nat
  | x, [] => .ok x
  | x, y :: rest =>
    match op x y with
    | .error e => .error e
    | .ok z => if overflows nbits z then .error .overflow else foldChecked nbits op z rest

/-- `foldl1`, EmptySequence on an empty sequence (41_fold_derivation.md R110). -/
def fold1Checked (nbits : Nat) (op : Nat → Nat → Except ErrCode Nat) : List Nat → Except ErrCode Nat
  | [] => .error .emptySequence
  | x :: rest => foldChecked nbits op x rest

/-- Multiplication as a fold operation; it raises no error of its own. -/
def mulChecked (x y : Nat) : Except ErrCode Nat := .ok (x * y)

/-- Factor validation, all of it before any arithmetic (41_fold_derivation.md R111; 90_conflicts.md C3). -/
def validate (fs : List Nat) : Except ErrCode (List Nat) :=
  if fs.isEmpty then .error .invalidInput
  else if fs.any (fun f => decide (f < 2)) then .error .invalidInput
  else .ok fs

/-- The product of the factors (41_fold_derivation.md R114). -/
def product (nbits : Nat) (fs : List Nat) : Except ErrCode Nat :=
  match validate fs with
  | .error e => .error e
  | .ok fs => foldChecked nbits mulChecked 1 fs

/-- `phi(fs, method)` of a validated list (41_fold_derivation.md R112). -/
def phi (nbits : Nat) (m : Method) (fs : List Nat) : Except ErrCode Nat :=
  match m with
  | .euler => foldChecked nbits mulChecked 1 (fs.map (· - 1))
  | .carmichael => fold1Checked nbits lcmChecked (fs.map (· - 1))
  | .m2 => .error .invalidMethod
  | .m3 => .error .invalidMethod

/-- The source's `compute_phi`: InvalidMethod, InvalidInput, Overflow, in this order
(41_fold_derivation.md R115). -/
def totient (nbits : Nat) (m : Method) (fs : List Nat) : Except ErrCode Nat :=
  if m = .m2 ∨ m = .m3 then .error .invalidMethod
  else
    match validate fs with
    | .error e => .error e
    | .ok fs => phi nbits m fs

/-- The source's `compute_d(e, φ)`: InvalidExponent, InvalidInput, NotCoprime
(41_fold_derivation.md R116; 90_conflicts.md C6). -/
def deriveExponent (e φ : Nat) : Except ErrCode Nat :=
  if e < 1 then .error .invalidExponent
  else if φ < 1 then .error .invalidInput
  else inverseMod e φ

/-- The source's `compute_d(e, factors, method)` (41_fold_derivation.md R117). -/
def deriveFromFactors (nbits : Nat) (m : Method) (e : Nat) (fs : List Nat) : Except ErrCode Nat :=
  if e < 1 then .error .invalidExponent
  else
    match totient nbits m fs with
    | .error err => .error err
    | .ok φ => inverseMod e φ

/-- The one deferred write of a command whose result is a natural number. -/
def writeNat (rd : RegIdx) : Except ErrCode Nat → CmdResult
  | .error e => .error e
  | .ok v => .ok [(rd, OpReg.ofNat v)]

/-- LCMFOLD (41_fold_derivation.md R113). -/
def execLcmfold (rd ra : RegIdx) (len : Len) (s : State) : Host.Outcome State Fault Refusal :=
  runCommand (.lcmfold rd ra len)
    (fun regs => writeNat rd (fold1Checked s.config.nbits lcmChecked (regs.rangeNums ra len))) s

/-- PROD (41_fold_derivation.md R114). -/
def execProd (rd ra : RegIdx) (len : Len) (s : State) : Host.Outcome State Fault Refusal :=
  runCommand (.prod rd ra len)
    (fun regs => writeNat rd (product s.config.nbits (regs.rangeNums ra len))) s

/-- PHI (41_fold_derivation.md R115). -/
def execPhi (m : Method) (rd ra : RegIdx) (len : Len) (s : State) : Host.Outcome State Fault Refusal :=
  runCommand (.phi m rd ra len)
    (fun regs => writeNat rd (totient s.config.nbits m (regs.rangeNums ra len))) s

/-- DERIVD (41_fold_derivation.md R116). -/
def execDerivd (rd ra rb : RegIdx) (s : State) : Host.Outcome State Fault Refusal :=
  runCommand (.derivd rd ra rb)
    (fun regs => writeNat rd (deriveExponent (regs.num ra) (regs.num rb))) s

/-- DERIVDF (41_fold_derivation.md R117). -/
def execDerivdf (m : Method) (rd ra rb : RegIdx) (len : Len) (s : State) :
    Host.Outcome State Fault Refusal :=
  runCommand (.derivdf m rd ra rb len)
    (fun regs => writeNat rd (deriveFromFactors s.config.nbits m (regs.num ra) (regs.rangeNums rb len))) s

end Sys2Proof.Machine
end

