-- ==== Sys2Proof/Machine/Transform.lean ====
section
/-! DEFINITION. The RSA transform: MODEXP, MODMUL and MONTMUL (42_transform.md). -/

namespace Sys2Proof.Machine

open Sys2Proof

/-- Left-to-right square-and-multiply over bits i−1 … 0 of k (42_transform.md R123). -/
def powLoop (x k n : Nat) : Nat → Nat → Nat
  | 0, acc => acc
  | i + 1, acc =>
    powLoop x k n i (if k.testBit i then acc * acc % n * x % n else acc * acc % n)

/-- `(x^k) mod n` for n > 0, with x^0 = 1 (42_transform.md R120, D28). Only the result is
architectural (R123); `Laws.powMod_eq` shows it is x^k mod n. -/
def powMod (x k n : Nat) : Nat := powLoop x k n (k.log2 + 1) (1 % n)

/-- R⁻¹ mod n for R = 2^NBITS and odd n, the r in [0, n) with R·r mod n = 1 mod n (42_transform.md
R122); `Laws.montInv_spec` shows it is that r. -/
def montInv (nbits n : Nat) : Nat :=
  match egcd (2 ^ nbits % n) n with
  | (_, u, _) => emod u n

/-- MODEXP's own rule (42_transform.md R120). -/
def modexpOwn (rd ra rb rn : RegIdx) (regs : RegFile) : CmdResult :=
  if regs.num rn = 0 then .error .zeroModulus
  else .ok [(rd, OpReg.ofNat (powMod (regs.num ra) (regs.num rb) (regs.num rn)))]

/-- MODMUL's own rule: the full product is reduced (42_transform.md R121). -/
def modmulOwn (rd ra rb rn : RegIdx) (regs : RegFile) : CmdResult :=
  if regs.num rn = 0 then .error .zeroModulus
  else .ok [(rd, OpReg.ofNat (regs.num ra * regs.num rb % regs.num rn))]

/-- MONTMUL's own rule: ZeroModulus, then EvenModulus (42_transform.md R122). -/
def montmulOwn (nbits : Nat) (rd ra rb rn : RegIdx) (regs : RegFile) : CmdResult :=
  if regs.num rn = 0 then .error .zeroModulus
  else if regs.num rn % 2 = 0 then .error .evenModulus
  else .ok [(rd, OpReg.ofNat
    (regs.num ra * regs.num rb * montInv nbits (regs.num rn) % regs.num rn))]

/-- MODEXP (42_transform.md R120). -/
def execModexp (rd ra rb rn : RegIdx) (s : State) : Host.Outcome State Fault Refusal :=
  runCommand (.modexp rd ra rb rn) (modexpOwn rd ra rb rn) s

/-- MODMUL (42_transform.md R121). -/
def execModmul (rd ra rb rn : RegIdx) (s : State) : Host.Outcome State Fault Refusal :=
  runCommand (.modmul rd ra rb rn) (modmulOwn rd ra rb rn) s

/-- MONTMUL (42_transform.md R122). -/
def execMontmul (rd ra rb rn : RegIdx) (s : State) : Host.Outcome State Fault Refusal :=
  runCommand (.montmul rd ra rb rn) (montmulOwn s.config.nbits rd ra rb rn) s

end Sys2Proof.Machine
end

