-- ==== Sys2Proof/Machine/Dispatch.lean ====
section
/-! DEFINITION. One arm per command (30_encoding.md R73). -/

namespace Sys2Proof.Machine

open Sys2Proof

def exec (i : Instr) (s : State) : Host.Outcome State Fault Refusal :=
  match i with
  | .nop => Sys2Proof.Machine.execNop s
  | .mov rd ra => Sys2Proof.Machine.execMov rd ra s
  | .egcd rd ra rb => Sys2Proof.Machine.execEgcd rd ra rb s
  | .modinv rd ra rb => Sys2Proof.Machine.execModinv rd ra rb s
  | .lcm rd ra rb => Sys2Proof.Machine.execLcm rd ra rb s
  | .lcmfold rd ra len => Sys2Proof.Machine.execLcmfold rd ra len s
  | .prod rd ra len => Sys2Proof.Machine.execProd rd ra len s
  | .phi m rd ra len => Sys2Proof.Machine.execPhi m rd ra len s
  | .derivd rd ra rb => Sys2Proof.Machine.execDerivd rd ra rb s
  | .derivdf m rd ra rb len => Sys2Proof.Machine.execDerivdf m rd ra rb len s
  | .modexp rd ra rb rn => Sys2Proof.Machine.execModexp rd ra rb rn s
  | .modmul rd ra rb rn => Sys2Proof.Machine.execModmul rd ra rb rn s
  | .montmul rd ra rb rn => Sys2Proof.Machine.execMontmul rd ra rb rn s

end Sys2Proof.Machine
end

