-- ==== Sys2Proof/Machine/Engine.lean ====
section
/-! DEFINITION. The engine's turn (10_state.md R21; 60_exceptions.md R141). -/

namespace Sys2Proof.Machine

open Sys2Proof

/-- The completion step while BUSY: the word captured at acceptance is decoded and run, or raises
IllegalCommand (20_memory.md R52, R61; 30_encoding.md R75). While IDLE the engine changes nothing
(60_exceptions.md R156, log 7). -/
def engineStep (s : State) : Host.Outcome State Fault Refusal :=
  match s.engine with
  | .idle => .next s
  | .busy snap =>
    match decode snap.cw with
    | .ok i => exec i s
    | .error _ => .next s.completeIllegal

/-- The state in which the engine's next turn runs the command word w. With nothing on the agenda the
next turn is the engine's already; otherwise one is put before the others (log 11). -/
def State.presentCommand (s : State) (w : Word) : State :=
  { s.accept w with
    agenda :=
      match s.agenda with
      | [] => []
      | t :: rest => .engine :: t :: rest }

end Sys2Proof.Machine
end

