-- ==== Sys2Proof/Machine/Step.lean ====
section
/-! DEFINITION. One step of the machine: the next turn of the agenda, or the engine's once the agenda
is used up (10_state.md R21; 20_memory.md R58; 60_exceptions.md R150; log 6). -/

namespace Sys2Proof.Machine

open Sys2Proof

/-- One atomic turn. -/
def step (s : State) : Host.Outcome State Fault Refusal :=
  match s.agenda with
  | [] => engineStep s
  | .engine :: rest => engineStep { s with agenda := rest }
  | .hardReset :: rest => hardResetStep { s with agenda := rest }
  | .host a onErr :: rest => hostStep a onErr { s with agenda := rest }

/-- `s` with the command word `w` accepted, so that the very next step runs it (20_memory.md R52,
log 11). The bits above `nbits` are 0. -/
def State.withFetchWord (s : State) (nbits w : Nat) : State :=
  s.presentCommand (BitVec.ofNat 32 (w % 2 ^ nbits))

end Sys2Proof.Machine
end

