-- ==== Sys2Proof/Machine/Assembler.lean ====
section
/-! DEFINITION. The assembly syntax and the pseudo-instructions (30_encoding.md R80, R81). -/

namespace Sys2Proof.Machine

open Sys2Proof

/-- The pseudo-instructions (30_encoding.md R81). -/
inductive Pseudo where
  | derivdf (rd ra rb : RegIdx) (len : Len)
  | gcd (rd ra rb : RegIdx)
  | computen (rd ra : RegIdx) (len : Len)
  | modsqr (rd ra rn : RegIdx)
  | enc (rd rm re rn : RegIdx)
  | dec (rd rc rk rn : RegIdx)
  | tomont (rd ra rr rn : RegIdx)
  | frommont (rd ra r1 rn : RegIdx)
  deriving DecidableEq, Repr

/-- Each expands to exactly one command (30_encoding.md R81). -/
def Pseudo.expand : Pseudo → Instr
  | .derivdf rd ra rb len => .derivdf .euler rd ra rb len
  | .gcd rd ra rb => .egcd rd ra rb
  | .computen rd ra len => .prod rd ra len
  | .modsqr rd ra rn => .modmul rd ra ra rn
  | .enc rd rm re rn => .modexp rd rm re rn
  | .dec rd rc rk rn => .modexp rd rc rk rn
  | .tomont rd ra rr rn => .montmul rd ra rr rn
  | .frommont rd ra r1 rn => .montmul rd ra r1 rn

/-- One line of assembly, split into its parts (30_encoding.md R80). -/
inductive AsmLine where
  | command (i : Instr)
  | pseudo (p : Pseudo)
  | word (w : Word)
  deriving DecidableEq, Repr

/-- A length operand is a decimal from 0 to 16; an assembler refuses 17 … 31 (30_encoding.md R80). -/
def lenSpellable : Instr → Bool
  | .lcmfold _ _ len => len.val ≤ 16
  | .prod _ _ len => len.val ≤ 16
  | .phi _ _ _ len => len.val ≤ 16
  | .derivdf _ _ _ _ len => len.val ≤ 16
  | .nop | .mov _ _ | .egcd _ _ _ | .modinv _ _ _ | .lcm _ _ _ | .derivd _ _ _
  | .modexp _ _ _ _ | .modmul _ _ _ _ | .montmul _ _ _ _ => true

/-- The word a line assembles to, none where the assembler refuses it (30_encoding.md R80, R81).
DESIGN CHOICE (log 21): R80 refuses a length of 17 … 31 and is silent on the other ill-formed words. A
line whose word breaks R75 items 4 or 5 (`EGCD r14, r0, r1`, `LCMFOLD r0, r15, #2`) is assembled, and
the command it spells completes with IllegalCommand. -/
def assemble : AsmLine → Option Word
  | .command i => if lenSpellable i then some (encode i) else none
  | .pseudo p => if lenSpellable p.expand then some (encode p.expand) else none
  | .word w => some w

/-! Writing a command as text. -/

/-- A decimal below 100, shortest form. -/
def decText (n : Nat) : List Char :=
  if n < 10 then [n.digitChar] else [(n / 10).digitChar, (n % 10).digitChar]

/-- `r0` … `r15` (30_encoding.md R80). -/
def regText (k : RegIdx) : List Char := 'r' :: decText k.val

/-- `#len` (30_encoding.md R80). -/
def lenText (len : Len) : List Char := '#' :: decText len.val

/-- Operands separated by commas (30_encoding.md R80). -/
def joinOperands : List (List Char) → List Char
  | [] => []
  | [t] => t
  | t :: rest => t ++ [',', ' '] ++ joinOperands rest

/-- The method suffix of PHI and DERIVDF (30_encoding.md R80). -/
def methodSuffix : Method → List Char
  | .euler => ['.', 'E', 'U', 'L', 'E', 'R']
  | .carmichael => ['.', 'C', 'A', 'R', 'M']
  | .m2 => ['.', 'M', '2']
  | .m3 => ['.', 'M', '3']

/-- A command's mnemonic, suffix included (30_encoding.md R80). -/
def mnemonicText : Instr → List Char
  | .nop => ['N', 'O', 'P']
  | .mov _ _ => ['M', 'O', 'V']
  | .egcd _ _ _ => ['E', 'G', 'C', 'D']
  | .modinv _ _ _ => ['M', 'O', 'D', 'I', 'N', 'V']
  | .lcm _ _ _ => ['L', 'C', 'M']
  | .lcmfold _ _ _ => ['L', 'C', 'M', 'F', 'O', 'L', 'D']
  | .prod _ _ _ => ['P', 'R', 'O', 'D']
  | .phi m _ _ _ => ['P', 'H', 'I'] ++ methodSuffix m
  | .derivd _ _ _ => ['D', 'E', 'R', 'I', 'V', 'D']
  | .derivdf m _ _ _ _ => ['D', 'E', 'R', 'I', 'V', 'D', 'F'] ++ methodSuffix m
  | .modexp _ _ _ _ => ['M', 'O', 'D', 'E', 'X', 'P']
  | .modmul _ _ _ _ => ['M', 'O', 'D', 'M', 'U', 'L']
  | .montmul _ _ _ _ => ['M', 'O', 'N', 'T', 'M', 'U', 'L']

/-- A command's operands in encoding-field order (30_encoding.md R80). -/
def operandTexts : Instr → List (List Char)
  | .nop => []
  | .mov rd ra => [regText rd, regText ra]
  | .egcd rd ra rb => [regText rd, regText ra, regText rb]
  | .modinv rd ra rb => [regText rd, regText ra, regText rb]
  | .lcm rd ra rb => [regText rd, regText ra, regText rb]
  | .lcmfold rd ra len => [regText rd, regText ra, lenText len]
  | .prod rd ra len => [regText rd, regText ra, lenText len]
  | .phi _ rd ra len => [regText rd, regText ra, lenText len]
  | .derivd rd ra rb => [regText rd, regText ra, regText rb]
  | .derivdf _ rd ra rb len => [regText rd, regText ra, regText rb, lenText len]
  | .modexp rd ra rb rn => [regText rd, regText ra, regText rb, regText rn]
  | .modmul rd ra rb rn => [regText rd, regText ra, regText rb, regText rn]
  | .montmul rd ra rb rn => [regText rd, regText ra, regText rb, regText rn]

/-- The line that spells a command (30_encoding.md R80). -/
def instrText (i : Instr) : List Char := mnemonicText i ++ [' '] ++ joinOperands (operandTexts i)

/-! Reading a line of text (log 21). -/

/-- A space or a tab. -/
def isBlank (c : Char) : Bool := c = ' ' || c = '\t'

/-- A text without the blanks at its ends. -/
def trim (t : List Char) : List Char := ((t.dropWhile isBlank).reverse.dropWhile isBlank).reverse

/-- A text cut at every comma. -/
def cutAtCommas : List Char → List (List Char)
  | [] => [[]]
  | c :: rest =>
    if c = ',' then [] :: cutAtCommas rest
    else
      match cutAtCommas rest with
      | [] => [[c]]
      | t :: ts => (c :: t) :: ts

/-- `r0` … `r15`, case-insensitive (30_encoding.md R80). -/
def readReg : List Char → Option RegIdx
  | c :: digits =>
    if c = 'r' ∨ c = 'R' then (List.finRange NREGS).find? (fun k => decText k.val = digits) else none
  | [] => none

/-- `#len`, a decimal from 0 to 16 (30_encoding.md R80). -/
def readLen : List Char → Option Len
  | c :: digits =>
    if c = '#' then ((List.finRange 32).take 17).find? (fun l => decText l.val = digits) else none
  | [] => none

/-- One hexadecimal digit, in either case. -/
def hexDigit (c : Char) : Option Nat :=
  (List.range 16).find? fun n => n.digitChar = c || n.digitChar.toUpper = c

/-- Hexadecimal digits, the most significant first. -/
def readHex : Nat → List Char → Option Nat
  | acc, [] => some acc
  | acc, c :: rest =>
    match hexDigit c with
    | some d => readHex (16 * acc + d) rest
    | none => none

/-- `0xHHHHHHHH`, eight digits (30_encoding.md R80). -/
def readRawWord : List Char → Option Word
  | '0' :: 'x' :: digits =>
    if digits.length = 8 then (readHex 0 digits).map (BitVec.ofNat 32) else none
  | _ => none

/-- The operands of a line: registers, and at the end perhaps a length. -/
def readOperands : List (List Char) → Option (List RegIdx × Option Len)
  | [] => some ([], none)
  | t :: rest =>
    match readReg t with
    | some k => (readOperands rest).map fun p => (k :: p.1, p.2)
    | none =>
      match readLen t, rest with
      | some l, [] => some ([], some l)
      | _, _ => none

/-- The lines with a register list and no length (30_encoding.md R80, R81). -/
def regLines : List RegIdx → List (List Char × AsmLine)
  | [] => [(mnemonicText .nop, .command .nop)]
  | [rd, ra] => [(mnemonicText (.mov rd ra), .command (.mov rd ra))]
  | [rd, ra, rb] => [
    (mnemonicText (.egcd rd ra rb), .command (.egcd rd ra rb)),
    (mnemonicText (.modinv rd ra rb), .command (.modinv rd ra rb)),
    (mnemonicText (.lcm rd ra rb), .command (.lcm rd ra rb)),
    (mnemonicText (.derivd rd ra rb), .command (.derivd rd ra rb)),
    (['G', 'C', 'D'], .pseudo (.gcd rd ra rb)),
    (['M', 'O', 'D', 'S', 'Q', 'R'], .pseudo (.modsqr rd ra rb))]
  | [rd, ra, rb, rn] => [
    (mnemonicText (.modexp rd ra rb rn), .command (.modexp rd ra rb rn)),
    (mnemonicText (.modmul rd ra rb rn), .command (.modmul rd ra rb rn)),
    (mnemonicText (.montmul rd ra rb rn), .command (.montmul rd ra rb rn)),
    (['E', 'N', 'C'], .pseudo (.enc rd ra rb rn)),
    (['D', 'E', 'C'], .pseudo (.dec rd ra rb rn)),
    (['T', 'O', 'M', 'O', 'N', 'T'], .pseudo (.tomont rd ra rb rn)),
    (['F', 'R', 'O', 'M', 'M', 'O', 'N', 'T'], .pseudo (.frommont rd ra rb rn))]
  | _ => []

/-- The lines with a register list and a length (30_encoding.md R80, R81). -/
def lenLines (len : Len) : List RegIdx → List (List Char × AsmLine)
  | [rd, ra] => [
    (mnemonicText (.lcmfold rd ra len), .command (.lcmfold rd ra len)),
    (mnemonicText (.prod rd ra len), .command (.prod rd ra len)),
    (['C', 'O', 'M', 'P', 'U', 'T', 'E', 'N'], .pseudo (.computen rd ra len))]
    ++ [Method.euler, .carmichael, .m2, .m3].map fun m =>
      (mnemonicText (.phi m rd ra len), .command (.phi m rd ra len))
  | [rd, ra, rb] => (['D', 'E', 'R', 'I', 'V', 'D', 'F'], .pseudo (.derivdf rd ra rb len))
    :: [Method.euler, .carmichael, .m2, .m3].map fun m =>
      (mnemonicText (.derivdf m rd ra rb len), .command (.derivdf m rd ra rb len))
  | _ => []

/-- A line without its comment: none where no line of R80 and R81 is spelled so. -/
def readLine (text : List Char) : Option AsmLine :=
  let name := text.takeWhile fun c => !isBlank c
  let rest := trim (text.dropWhile fun c => !isBlank c)
  if name = ['.', 'w', 'o', 'r', 'd'] then (readRawWord rest).map .word
  else
    match readOperands (if rest = [] then [] else (cutAtCommas rest).map trim) with
    | none => none
    | some (ks, len) =>
      let lines := match len with
        | none => regLines ks
        | some l => lenLines l ks
      (lines.find? fun p => p.1 = name).map Prod.snd

/-- The words a line of assembly text emits: one command a line, `; text` a comment, an empty line
nothing; none where the assembler refuses the line (30_encoding.md R80). -/
def assembleText (line : List Char) : Option (List Word) :=
  let text := trim (line.takeWhile fun c => decide (c ≠ ';'))
  if text = [] then some []
  else
    match readLine text with
    | none => none
    | some l => (assemble l).map fun w => [w]

end Sys2Proof.Machine
end

