-- ==== Sys2Proof/Machine/HostSequences.lean ====
section
/-! DEFINITION. encrypt and decrypt as host command sequences, the host that issues one, waits, and
stops at the first non-zero CODE, and the macros of the host pseudo-assembly as turns of the agenda
(42_transform.md R124; 00_scope.md R18). -/

namespace Sys2Proof.Machine

open Sys2Proof

/-- The six forms of `encrypt` and `decrypt`, by the registers that hold their arguments
(42_transform.md R124). -/
inductive Transform where
  | encrypt (rc rm re rn : RegIdx)
  | encryptFactors (rc rm re rn rf : RegIdx) (len : Len)
  | decrypt (rp rc rd rn : RegIdx)
  | decryptPhi (rp rc re rphi rn rd : RegIdx)
  | decryptFactors (m : Method) (rp rc re rf : RegIdx) (len : Len) (rn rd : RegIdx)
  | decryptFactorsD (rp rc rd rf : RegIdx) (len : Len) (rn : RegIdx)
  deriving DecidableEq, Repr

/-- The commands of a form, n resolved first, then d (42_transform.md R124). -/
def Transform.sequence : Transform → List Instr
  | .encrypt rc rm re rn => [.modexp rc rm re rn]
  | .encryptFactors rc rm re rn rf len => [.prod rn rf len, .modexp rc rm re rn]
  | .decrypt rp rc rd rn => [.modexp rp rc rd rn]
  | .decryptPhi rp rc re rphi rn rd => [.derivd rd re rphi, .modexp rp rc rd rn]
  | .decryptFactors m rp rc re rf len rn rd =>
    [.prod rn rf len, .derivdf m rd re rf len, .modexp rp rc rd rn]
  | .decryptFactorsD rp rc rd rf len rn => [.prod rn rf len, .modexp rp rc rd rn]

/-- ISSUE, then WAIT until the completion, which weak fairness of the engine brings
(00_scope.md R18; 70_reset_and_hazards.md R180). The host issues while the engine is IDLE (R174). -/
def issueAndWait (i : Instr) (s : State) : Host.Outcome State Fault Refusal :=
  engineStep (s.writeCmd (encode i))

/-- The host's duty: issue each command, wait, read ERRCODE, stop at the first non-zero CODE and
report it unchanged (42_transform.md R124). -/
def runSequence : List Instr → State → Host.Outcome (State × Option ErrCode) Fault Refusal
  | [], s => .next (s, none)
  | i :: rest, s =>
    match issueAndWait i s with
    | .next t =>
      match t.code with
      | none => runSequence rest t
      | some e => .next (t, some e)
    | .fault f => .fault f
    | .refused r => .refused r

/-- An operation of the host pseudo-assembly; its `if`, `goto` and labels are the host's own control
flow (00_scope.md R18). -/
inductive HostOp where
  | wr (off : Nat) (v : Word)
  | rd (off : Nat)
  | loadr (k : RegIdx) (v : Nat)
  | issue (w : Word)
  | wait
  | ack
  deriving DecidableEq, Repr

/-- A 32-bit write at an offset, by a host that ignores BUSERR. -/
def writeTurn (c : Config) (off : Nat) (v : Word) : Turn := .host ⟨.w32, c.base + off, .write v⟩ .ignores

/-- A 32-bit read at an offset, by a host that ignores BUSERR. -/
def readTurn (c : Config) (off : Nat) : Turn := .host ⟨.w32, c.base + off, .read⟩ .ignores

/-- The turns of an operation (00_scope.md R18). Of the polls of WAIT the last stands for all, the
engine's turn before it: the polls before change nothing (20_memory.md R57, log 22). -/
def HostOp.turns (c : Config) : HostOp → List Turn
  | .wr off v => [writeTurn c off v]
  | .rd off => [readTurn c off]
  | .loadr k v => (List.range c.nwords).map fun i => writeTurn c (windowOffset k i) (magWord v i)
  | .issue w => [writeTurn c 0x00C w]
  | .wait => [.engine, readTurn c 0x010]
  | .ack => [writeTurn c 0x010 0x0000001E]

/-- The turns of a straight run of operations. -/
def hostTurns (c : Config) (ops : List HostOp) : List Turn := ops.flatMap (HostOp.turns c)

end Sys2Proof.Machine
end

