-- ==== Sys2Proof/Safety.lean ====
section
/-! DEFINITION. What claims are stated in: ill-formed words, reset states, the invariant of the
machine, and host accesses that get no BUSERR. -/

namespace Sys2Proof

/-- A word belongs to a row of the opcode table and meets the constraints of R75 items 4 and 5
(30_encoding.md R82). -/
def OpcodeRow.Fits (r : OpcodeRow) (w : Word) : Prop :=
  w &&& r.mask = r.pattern
  ∧ (r.opcode = .egcd → bits w.toNat 11 8 ≤ 13)
  ∧ (r.opcode = .lcmfold ∨ r.opcode = .prod ∨ r.opcode = .phi →
      bits w.toNat 15 12 + bits w.toNat 28 24 ≤ 16)
  ∧ (r.opcode = .derivdf → bits w.toNat 19 16 + bits w.toNat 28 24 ≤ 16)

end Sys2Proof

namespace Sys2Proof.Machine

open Sys2Proof

/-- 30_encoding.md R75, item by item, over the bits of a command word. -/
def IllFormed (w : Word) : Prop :=
  let v := w.toNat
  let op := bits v 5 0
  let m := bits v 7 6
  let rd := bits v 11 8
  let ra := bits v 15 12
  let rb := bits v 19 16
  let rn := bits v 23 20
  let len := bits v 28 24
  let f := bits v 29 29
  bits v 31 30 ≠ 0
  ∨ 0x0C ≤ op
  ∨ (op = 0x00 ∧ (m ≠ 0 ∨ rd ≠ 0 ∨ ra ≠ 0 ∨ rb ≠ 0 ∨ rn ≠ 0 ∨ len ≠ 0 ∨ f ≠ 0))
  ∨ (op = 0x01 ∧ (m ≠ 0 ∨ rb ≠ 0 ∨ rn ≠ 0 ∨ len ≠ 0 ∨ f ≠ 0))
  ∨ ((op = 0x02 ∨ op = 0x03 ∨ op = 0x04) ∧ (m ≠ 0 ∨ rn ≠ 0 ∨ len ≠ 0 ∨ f ≠ 0))
  ∨ ((op = 0x05 ∨ op = 0x06) ∧ (m ≠ 0 ∨ rb ≠ 0 ∨ rn ≠ 0 ∨ f ≠ 0))
  ∨ (op = 0x07 ∧ (rb ≠ 0 ∨ rn ≠ 0 ∨ f ≠ 0))
  ∨ (op = 0x08 ∧ f = 0 ∧ (m ≠ 0 ∨ rn ≠ 0 ∨ len ≠ 0))
  ∨ (op = 0x08 ∧ f = 1 ∧ rn ≠ 0)
  ∨ ((op = 0x09 ∨ op = 0x0A ∨ op = 0x0B) ∧ (m ≠ 0 ∨ len ≠ 0 ∨ f ≠ 0))
  ∨ (op = 0x02 ∧ 13 < rd)
  ∨ ((op = 0x05 ∨ op = 0x06 ∨ op = 0x07) ∧ 16 < ra + len)
  ∨ (op = 0x08 ∧ f = 1 ∧ 16 < rb + len)

/-- A state right after a reset (10_state.md R37): every field as listed, the magnitudes anything an
operand register can hold. -/
structure State.IsReset (s : State) : Prop where
  mag_fits : ∀ k : RegIdx, (s.regs.read k).mag < 2 ^ s.config.nbits
  sign_clear : ∀ k : RegIdx, (s.regs.read k).sign = false
  engine_idle : s.engine = .idle
  id_word : s.csrWord .id = 0x4E544531
  cfg_word : s.csrWord .cfg = BitVec.ofNat 32 (2 ^ 24 + 16 * 2 ^ 16 + s.config.nwords)
  ctrl_word : s.csrWord .ctrl = 0
  cmd_word : s.csrWord .cmd = 0
  status_word : s.csrWord .status = 0
  errcode_word : s.csrWord .errcode = 0
  sign_word : s.csrWord .sign = 0
  irq_low : s.irq = false

/-- What a register holds: NBITS bits, and no negative zero (10_state.md R22, R23). -/
def OpReg.Ok (nbits : Nat) (r : OpReg) : Prop := r.mag < 2 ^ nbits ∧ (r.sign = true → r.mag ≠ 0)

/-- The invariant of the machine: the configuration is a legal one, every register holds a legal
value, the snapshot equals the live registers and CMD while BUSY (10_state.md R26, R30), and DONE is
0 while BUSY (R31). -/
structure State.Inv (s : State) : Prop where
  config_ok : s.config.wf
  regs_ok : ∀ k : RegIdx, (s.regs.read k).Ok s.config.nbits
  snap_regs : ∀ snap, s.engine = .busy snap → snap.regs = s.regs
  snap_cw : ∀ snap, s.engine = .busy snap → snap.cw = s.cmd
  done_idle : s.busy = true → s.done = false

/-- A host access that lies in the block and gets no BUSERR (60_exceptions.md R147). -/
def Access.InMap (c : Config) (a : Access) : Prop :=
  a.width = .w32 ∧ c.base ≤ a.addr ∧ a.addr < c.base + blockSize
    ∧ (targetOf c.nwords (a.addr - c.base)).isSome = true

/-- A turn that cannot stop the run: a turn of the engine or the platform, a host access in the map,
or an access in the block by a host that ignores BUSERR. -/
def Turn.Harmless (c : Config) : Turn → Prop
  | .engine => True
  | .hardReset => True
  | .host a onErr =>
    a.InMap c ∨ (onErr = .ignores ∧ c.base ≤ a.addr ∧ a.addr < c.base + blockSize)

/-- A turn that resets: the platform's reset, or a 32-bit CTRL write with SRST = 1
(70_reset_and_hazards.md R170, R171). -/
def Turn.Resets (c : Config) : Turn → Prop
  | .engine => False
  | .hardReset => True
  | .host a _ => a.width = .w32 ∧ a.addr = c.base + 0x008 ∧ ∃ w : Word, a.op = .write w ∧ w.getLsbD 1 = true

/-- Everything but the operand registers, ERRCODE, STATUS.ERR, STATUS.DONE and the phase is as it was:
the frame of a completion step (60_exceptions.md R142, R143). -/
structure KeepsRest (s t : State) : Prop where
  config : t.config = s.config
  ie : t.ie = s.ie
  cmd : t.cmd = s.cmd
  cmdOvr : t.cmdOvr = s.cmdOvr
  winOvr : t.winOvr = s.winOvr
  agenda : t.agenda = s.agenda
  response : t.response = s.response
  draws : t.draws = s.draws

/-- `t` follows `s` by a successful completion, its register writes apart (60_exceptions.md R142). -/
structure Completed (s t : State) : Prop extends KeepsRest s t where
  code : t.code = none
  idle : t.engine = .idle
  done : t.done = true
  err : t.err = s.err

/-- `t` follows `s` by a completion with error `e`: no register write (60_exceptions.md R143). -/
structure FailedWith (e : ErrCode) (s t : State) : Prop extends KeepsRest s t where
  regs : t.regs = s.regs
  code : t.code = some e
  idle : t.engine = .idle
  done : t.done = true
  err : t.err = true

/-- The command completes with error `e`. -/
def Fails (i : Instr) (s : State) (e : ErrCode) : Prop := ∃ t, exec i s = .next t ∧ FailedWith e s t

/-- The command completes, writing `v` to R[rd] and nothing to any other register. -/
def WritesOne (i : Instr) (s : State) (rd : RegIdx) (v : OpReg) : Prop :=
  ∃ t, exec i s = .next t ∧ Completed s t ∧ t.regs.read rd = v
    ∧ ∀ k, k ≠ rd → t.regs.read k = s.regs.read k

/-- Some register of a factor range has sign 1. -/
def RangeSigned (regs : RegFile) (start : RegIdx) (len : Len) : Prop :=
  ∃ k ∈ rangeRegs start len, (regs.read k).sign = true

/-- Every step of the lcm fold from accumulator `x` is defined and fits (41_fold_derivation.md R110, R113). -/
def LcmSafe (nbits : Nat) : Nat → List Nat → Prop
  | _, [] => True
  | x, y :: rest => ¬(x = 0 ∧ y = 0) ∧ Nat.lcm x y < 2 ^ nbits ∧ LcmSafe nbits (Nat.lcm x y) rest

/-- The formulae of the two totients (41_fold_derivation.md R112; 90_conflicts.md C5). -/
def totientValue : Method → List Nat → Nat
  | .euler, fs => (fs.map (· - 1)).prod
  | .carmichael, fs => (fs.map (· - 1)).foldl Nat.lcm 1
  | .m2, _ => 0
  | .m3, _ => 0

/-- Every element of the list is a factor of at least 2 (41_fold_derivation.md R111). -/
def Factors (fs : List Nat) : Prop := fs ≠ [] ∧ ∀ f ∈ fs, 2 ≤ f

/-- `r` is the inverse of `a` modulo `m` in [0, m): emod of the first coefficient of egcd(a, m)
(00_scope.md R12; 40_kernel.md R102). -/
def IsInverse (a m r : Nat) : Prop :=
  r < m ∧ (m : Int) ∣ (egcd a m).2.1 - r ∧ a * r % m = 1 % m

/-- The next turn is a 32-bit host access at offset `off` of the block, `rest` the turns after it. -/
def State.AtAccess (s : State) (off : Nat) (op : BusOp) (rest : List Turn) : Prop :=
  ∃ onErr, s.agenda = .host ⟨.w32, s.config.base + off, op⟩ onErr :: rest

/-- `s` once a host access that changed nothing in the NTE has answered `resp`. -/
def State.answered (s : State) (rest : List Turn) (resp : Response) : State :=
  { s with agenda := rest, response := some resp }

end Sys2Proof.Machine
end

