-- ==== Sys2Proof/Certificates/Slice0/Obligations.lean ====
section
/-! DEFINITION. What is claimed of the model, from the numbered rules of the spec. -/

open Sys2Proof Sys2Proof.Machine

/-! ### Encoding -/

/-- Decoding the word of a well-formed command gives the command back (30_encoding.md R71 – R74). -/
def Obligations.DecodeOfEncodeIsTheCommand : Prop :=
  ∀ i : Instr, i.wellFormed = true → decode (encode i) = .ok i

/-- A word that decodes is the one word of a well-formed command: no bit of it is dropped
(30_encoding.md R74, R82). -/
def Obligations.DecodedWordIsTheEncoding : Prop :=
  ∀ (w : Word) (i : Instr), decode w = .ok i → i.wellFormed = true ∧ encode i = w

/-- 30_encoding.md R75: the decoder refuses exactly the ill-formed words; such a word is accepted like
any other and at completion raises IllegalCommand, code 11, whatever the registers hold. -/
def Obligations.IllFormedWordsRaiseIllegalCommand : Prop :=
  ∀ w : Word,
    ((∃ e, decode w = .error e) ↔ IllFormed w)
    ∧ (IllFormed w → ∀ (s : State) (rest : List Turn), s.AtAccess 0x00C (.write w) rest → s.engine = .idle →
        ∃ t, step s = .next t ∧ t.engine = .busy ⟨w, s.regs⟩ ∧ t.cmd = w)
    ∧ (IllFormed w → ∀ (s : State) (regs : RegFile), s.engine = .busy ⟨w, regs⟩ → s.agenda = [] →
        ∃ t, step s = .next t ∧ FailedWith .illegalCommand s t ∧ t.errcodeWord = 11)

/-- 30_encoding.md R82: every word is exactly one row of the opcode table that meets the constraints, or
is ill-formed and raises IllegalCommand; and a decoded command is of the row its word belongs to. -/
def Obligations.EveryWordIsOneTableRowOrIllegal : Prop :=
  ∀ w : Word,
    (¬ IllFormed w → ∃! r : OpcodeRow, r ∈ opcodeTable ∧ r.Fits w)
    ∧ (IllFormed w → (∀ r ∈ opcodeTable, ¬ r.Fits w)
        ∧ ∀ (s : State) (regs : RegFile), s.engine = .busy ⟨w, regs⟩ →
            ∃ t, engineStep s = .next t ∧ FailedWith .illegalCommand s t)
    ∧ ∀ (i : Instr) (r : OpcodeRow), decode w = .ok i → r ∈ opcodeTable → r.Fits w → i.opcode = r.opcode

/-- Words of the spec's own examples decode to the commands they stand for (95_test_vectors.md L2). -/
def Obligations.SampleWordsDecode : Prop :=
  decode 0x00000000 = .ok .nop
  ∧ decode 0x00003501 = .ok (.mov 5 3)
  ∧ decode 0x00010202 = .ok (.egcd 2 0 1)
  ∧ decode 0x0100F005 = .ok (.lcmfold 0 15 1)
  ∧ decode 0x02000247 = .ok (.phi .carmichael 2 0 2)
  ∧ decode 0x22002348 = .ok (.derivdf .carmichael 3 2 0 2)
  ∧ decode 0x00456709 = .ok (.modexp 7 6 5 4)
  ∧ decode 0x00259A0B = .ok (.montmul 10 9 5 2)
  ∧ decode 0x00010E02 = .error .egcdDestination
  ∧ decode 0x0200F005 = .error .factorRange
  ∧ decode 0x0000000C = .error .reservedOpcode
  ∧ decode 0x00000080 = .error .mustBeZero
  ∧ decode 0x40000000 = .error .reservedBits

/-- 30_encoding.md R77: a factor range that fits is the registers start, start+1, … in increasing
order, without wrapping. -/
def Obligations.FactorRangeIsConsecutive : Prop :=
  ∀ (start : RegIdx) (len : Len), start.val + len.val ≤ 16 →
    (rangeRegs start len).length = len.val
    ∧ ∀ (j : Nat) (h : j < (rangeRegs start len).length), ((rangeRegs start len)[j]).val = start.val + j

/-- 30_encoding.md R80, R81: each pseudo-instruction assembles to exactly one command's word; a command
or pseudo-instruction with a length assembles for 0 … 16 and is refused for 17 … 31. The
assembler's form, and that it accepts a line whose word breaks R75 items 4 or 5, are the model's choice
(log 21). -/
def Obligations.PseudoInstructionsAreOneCommand : Prop :=
  (∀ rd ra rb, assemble (.pseudo (.gcd rd ra rb)) = some (encode (.egcd rd ra rb)))
  ∧ (∀ rd ra rn, assemble (.pseudo (.modsqr rd ra rn)) = some (encode (.modmul rd ra ra rn)))
  ∧ (∀ rd rm re rn, assemble (.pseudo (.enc rd rm re rn)) = some (encode (.modexp rd rm re rn)))
  ∧ (∀ rd rc rk rn, assemble (.pseudo (.dec rd rc rk rn)) = some (encode (.modexp rd rc rk rn)))
  ∧ (∀ rd ra rr rn, assemble (.pseudo (.tomont rd ra rr rn)) = some (encode (.montmul rd ra rr rn)))
  ∧ (∀ rd ra r1 rn, assemble (.pseudo (.frommont rd ra r1 rn)) = some (encode (.montmul rd ra r1 rn)))
  ∧ ∀ (m : Method) (rd ra rb : RegIdx) (len : Len),
      (len.val ≤ 16 →
        assemble (.command (.lcmfold rd ra len)) = some (encode (.lcmfold rd ra len))
        ∧ assemble (.command (.prod rd ra len)) = some (encode (.prod rd ra len))
        ∧ assemble (.command (.phi m rd ra len)) = some (encode (.phi m rd ra len))
        ∧ assemble (.command (.derivdf m rd ra rb len)) = some (encode (.derivdf m rd ra rb len))
        ∧ assemble (.pseudo (.computen rd ra len)) = some (encode (.prod rd ra len))
        ∧ assemble (.pseudo (.derivdf rd ra rb len)) = some (encode (.derivdf .euler rd ra rb len)))
      ∧ (16 < len.val →
        assemble (.command (.lcmfold rd ra len)) = none
        ∧ assemble (.command (.prod rd ra len)) = none
        ∧ assemble (.command (.phi m rd ra len)) = none
        ∧ assemble (.command (.derivdf m rd ra rb len)) = none
        ∧ assemble (.pseudo (.computen rd ra len)) = none
        ∧ assemble (.pseudo (.derivdf rd ra rb len)) = none)

/-! ### The two agents -/

/-- The engine's turn runs the command its captured word decodes to: with no turn listed, and as the
next turn of the agenda (10_state.md R21; 20_memory.md R61; log 6). -/
def Obligations.StepRunsTheDecodedCommand : Prop :=
  ∀ (s : State) (snap : Snapshot) (i : Instr), s.engine = .busy snap → decode snap.cw = .ok i →
    (s.agenda = [] → step s = exec i s)
    ∧ ∀ rest, s.agenda = .engine :: rest → step s = exec i { s with agenda := rest }

/-- The word `withFetchWord` places is run by the very next step (20_memory.md R52; log 11). -/
def Obligations.PlacedWordRunsNext : Prop :=
  ∀ (s : State) (i : Instr), i.wellFormed = true →
    step (s.withFetchWord 32 (encode i).toNat) = exec i (s.accept (encode i))

/-- 60_exceptions.md R156: while IDLE the engine's turn changes nothing but the model's own agenda. -/
def Obligations.IdleEngineChangesNothing : Prop :=
  ∀ s : State, s.engine = .idle →
    (s.agenda = [] → step s = .next s)
    ∧ ∀ rest, s.agenda = .engine :: rest → step s = .next { s with agenda := rest }

/-- A meaning asked of an IDLE engine is refused by name, and no step asks one: the completion step is
enabled only while BUSY (10_state.md R21; log 10). -/
def Obligations.CompletionNeedsBusy : Prop :=
  (∀ (i : Instr) (s : State), s.engine = .idle → exec i s = .refused .engineIdle)
  ∧ ∀ s : State, step s ≠ .refused .engineIdle

/-! ### The commands -/

/-- 60_exceptions.md R144: before its own checks a command raises IllegalCommand if its constraints
fail, else SignedOperand if a register it reads as a number has sign 1. -/
def Obligations.CommonChecksComeFirst : Prop :=
  ∀ (s : State) (cw : Word) (regs : RegFile), s.engine = .busy ⟨cw, regs⟩ →
    (∀ i : Instr, i.wellFormed = false → Fails i s .illegalCommand)
    ∧ (∀ rd ra rb : RegIdx, (regs.read ra).sign = true ∨ (regs.read rb).sign = true →
        (rd.val ≤ 13 → Fails (.egcd rd ra rb) s .signedOperand)
        ∧ Fails (.modinv rd ra rb) s .signedOperand
        ∧ Fails (.lcm rd ra rb) s .signedOperand
        ∧ Fails (.derivd rd ra rb) s .signedOperand)
    ∧ (∀ rd ra rb rn : RegIdx,
        (regs.read ra).sign = true ∨ (regs.read rb).sign = true ∨ (regs.read rn).sign = true →
        Fails (.modexp rd ra rb rn) s .signedOperand
        ∧ Fails (.modmul rd ra rb rn) s .signedOperand
        ∧ Fails (.montmul rd ra rb rn) s .signedOperand)
    ∧ (∀ (m : Method) (rd ra : RegIdx) (len : Len), ra.val + len.val ≤ 16 → RangeSigned regs ra len →
        Fails (.lcmfold rd ra len) s .signedOperand
        ∧ Fails (.prod rd ra len) s .signedOperand
        ∧ Fails (.phi m rd ra len) s .signedOperand)
    ∧ (∀ (m : Method) (rd ra rb : RegIdx) (len : Len), rb.val + len.val ≤ 16 →
        (regs.read ra).sign = true ∨ RangeSigned regs rb len →
        Fails (.derivdf m rd ra rb len) s .signedOperand)

/-- 43_engine_control.md R130: NOP is the all-zero word, completes with CODE = 0 and writes no
register; op = 0 with any other bit set raises IllegalCommand. -/
def Obligations.NopCompletesAndWritesNothing : Prop :=
  encode .nop = 0x00000000
  ∧ (∀ (w : Word) (s : State) (regs : RegFile), bits w.toNat 5 0 = 0 → w ≠ 0 → s.engine = .busy ⟨w, regs⟩ →
      ∃ t, engineStep s = .next t ∧ FailedWith .illegalCommand s t)
  ∧ ∀ (s : State) (snap : Snapshot), s.engine = .busy snap →
      ∃ t, exec .nop s = .next t ∧ Completed s t ∧ t.regs = s.regs

/-- 43_engine_control.md R131: MOV copies magnitude and sign as they stand in the snapshot, a negative
value included. -/
def Obligations.MovCopiesMagnitudeAndSign : Prop :=
  ∀ rd ra : RegIdx,
    (encode (.mov rd ra)).toNat = 0x01 + 2 ^ 8 * rd.val + 2 ^ 12 * ra.val
    ∧ ∀ (s : State) (cw : Word) (regs : RegFile), s.engine = .busy ⟨cw, regs⟩ →
        WritesOne (.mov rd ra) s rd (regs.read ra)

/-- 40_kernel.md R101: EGCD writes g, u and v of egcd(a, b) to R[rd], R[rd+1] and R[rd+2], with sign 1
exactly for a negative coefficient, in every aliasing of its registers. -/
def Obligations.EgcdWritesTheTriple : Prop :=
  ∀ rd ra rb : RegIdx,
    (encode (.egcd rd ra rb)).toNat = 0x02 + 2 ^ 8 * rd.val + 2 ^ 12 * ra.val + 2 ^ 16 * rb.val
    ∧ ∀ (s : State) (cw : Word) (regs : RegFile), s.engine = .busy ⟨cw, regs⟩ →
      (13 < rd.val → Fails (.egcd rd ra rb) s .illegalCommand)
      ∧ (rd.val ≤ 13 → (regs.read ra).sign = true ∨ (regs.read rb).sign = true →
          Fails (.egcd rd ra rb) s .signedOperand)
      ∧ (rd.val ≤ 13 → (regs.read ra).sign = false → (regs.read rb).sign = false →
          ∀ (g : Nat) (u v : Int), egcd (regs.read ra).mag (regs.read rb).mag = (g, u, v) →
            (2 ^ s.config.nbits ≤ u.natAbs ∨ 2 ^ s.config.nbits ≤ v.natAbs →
              Fails (.egcd rd ra rb) s .overflow)
            ∧ (u.natAbs < 2 ^ s.config.nbits → v.natAbs < 2 ^ s.config.nbits →
              ∃ t, exec (.egcd rd ra rb) s = .next t ∧ Completed s t
                ∧ t.regs.read rd = ⟨g, false⟩
                ∧ t.regs.read (rd + 1) = ⟨u.natAbs, decide (u < 0)⟩
                ∧ t.regs.read (rd + 2) = ⟨v.natAbs, decide (v < 0)⟩
                ∧ ∀ k : RegIdx, k ≠ rd → k ≠ rd + 1 → k ≠ rd + 2 → t.regs.read k = s.regs.read k))

/-- 40_kernel.md R102: MODINV raises NotCoprime, then ZeroModulus, and otherwise writes the residue of
u in [0, m), the inverse of a. -/
def Obligations.ModinvWritesTheInverse : Prop :=
  ∀ rd ra rb : RegIdx,
    (encode (.modinv rd ra rb)).toNat = 0x03 + 2 ^ 8 * rd.val + 2 ^ 12 * ra.val + 2 ^ 16 * rb.val
    ∧ ∀ (s : State) (cw : Word) (regs : RegFile), s.engine = .busy ⟨cw, regs⟩ →
      ((regs.read ra).sign = true ∨ (regs.read rb).sign = true →
          Fails (.modinv rd ra rb) s .signedOperand)
      ∧ ((regs.read ra).sign = false → (regs.read rb).sign = false →
          (Nat.gcd (regs.read ra).mag (regs.read rb).mag ≠ 1 → Fails (.modinv rd ra rb) s .notCoprime)
          ∧ (Nat.gcd (regs.read ra).mag (regs.read rb).mag = 1 → (regs.read rb).mag = 0 →
              Fails (.modinv rd ra rb) s .zeroModulus)
          ∧ (Nat.gcd (regs.read ra).mag (regs.read rb).mag = 1 → (regs.read rb).mag ≠ 0 →
              ∃ r, IsInverse (regs.read ra).mag (regs.read rb).mag r
                ∧ WritesOne (.modinv rd ra rb) s rd ⟨r, false⟩))

/-- 40_kernel.md R103: LCM raises LcmUndefined for 0 and 0, then Overflow, and otherwise writes
(a·b) div gcd(a, b). -/
def Obligations.LcmWritesTheLeastCommonMultiple : Prop :=
  ∀ rd ra rb : RegIdx,
    (encode (.lcm rd ra rb)).toNat = 0x04 + 2 ^ 8 * rd.val + 2 ^ 12 * ra.val + 2 ^ 16 * rb.val
    ∧ ∀ (s : State) (cw : Word) (regs : RegFile), s.engine = .busy ⟨cw, regs⟩ →
      ((regs.read ra).sign = true ∨ (regs.read rb).sign = true → Fails (.lcm rd ra rb) s .signedOperand)
      ∧ ((regs.read ra).sign = false → (regs.read rb).sign = false →
          ∀ a b : Nat, (regs.read ra).mag = a → (regs.read rb).mag = b →
            (a = 0 ∧ b = 0 → Fails (.lcm rd ra rb) s .lcmUndefined)
            ∧ (¬(a = 0 ∧ b = 0) → 2 ^ s.config.nbits ≤ a * b / Nat.gcd a b →
                Fails (.lcm rd ra rb) s .overflow)
            ∧ (¬(a = 0 ∧ b = 0) → a * b / Nat.gcd a b < 2 ^ s.config.nbits →
                WritesOne (.lcm rd ra rb) s rd ⟨a * b / Nat.gcd a b, false⟩))

/-- 41_fold_derivation.md R113: LCMFOLD raises EmptySequence on an empty range; at its first step that
is lcm(0, 0) LcmUndefined, at its first step that does not fit Overflow; and otherwise writes the fold
of lcm, a single element unchanged. -/
def Obligations.LcmfoldFoldsTheRange : Prop :=
  ∀ (rd ra : RegIdx) (len : Len),
    (encode (.lcmfold rd ra len)).toNat = 0x05 + 2 ^ 8 * rd.val + 2 ^ 12 * ra.val + 2 ^ 24 * len.val
    ∧ ∀ (s : State) (cw : Word) (regs : RegFile), s.engine = .busy ⟨cw, regs⟩ →
      (16 < ra.val + len.val → Fails (.lcmfold rd ra len) s .illegalCommand)
      ∧ (ra.val + len.val ≤ 16 → RangeSigned regs ra len → Fails (.lcmfold rd ra len) s .signedOperand)
      ∧ (ra.val + len.val ≤ 16 → ¬ RangeSigned regs ra len →
          (len.val = 0 → Fails (.lcmfold rd ra len) s .emptySequence)
          ∧ ∀ (x : Nat) (xs : List Nat), regs.rangeNums ra len = x :: xs →
              (LcmSafe s.config.nbits x xs →
                WritesOne (.lcmfold rd ra len) s rd ⟨xs.foldl Nat.lcm x, false⟩)
              ∧ ∀ (before : List Nat) (y : Nat) (after : List Nat),
                  xs = before ++ y :: after → LcmSafe s.config.nbits x before →
                  (before.foldl Nat.lcm x = 0 ∧ y = 0 → Fails (.lcmfold rd ra len) s .lcmUndefined)
                  ∧ (2 ^ s.config.nbits ≤ Nat.lcm (before.foldl Nat.lcm x) y →
                      Fails (.lcmfold rd ra len) s .overflow))

/-- 41_fold_derivation.md R111, R114: PROD raises InvalidInput for an empty range or a factor below 2,
then Overflow, and otherwise writes the product of the factors. -/
def Obligations.ProdWritesTheProduct : Prop :=
  ∀ (rd ra : RegIdx) (len : Len),
    (encode (.prod rd ra len)).toNat = 0x06 + 2 ^ 8 * rd.val + 2 ^ 12 * ra.val + 2 ^ 24 * len.val
    ∧ ∀ (s : State) (cw : Word) (regs : RegFile), s.engine = .busy ⟨cw, regs⟩ →
      (16 < ra.val + len.val → Fails (.prod rd ra len) s .illegalCommand)
      ∧ (ra.val + len.val ≤ 16 → RangeSigned regs ra len → Fails (.prod rd ra len) s .signedOperand)
      ∧ (ra.val + len.val ≤ 16 → ¬ RangeSigned regs ra len → ∀ fs, regs.rangeNums ra len = fs →
          (¬ Factors fs → Fails (.prod rd ra len) s .invalidInput)
          ∧ (Factors fs → 2 ^ s.config.nbits ≤ fs.prod → Fails (.prod rd ra len) s .overflow)
          ∧ (Factors fs → fs.prod < 2 ^ s.config.nbits →
              WritesOne (.prod rd ra len) s rd ⟨fs.prod, false⟩))

/-- 41_fold_derivation.md R115: PHI raises InvalidMethod, InvalidInput and Overflow in this order, and
otherwise writes the totient of the method. The factors are register values, below 2^NBITS. -/
def Obligations.PhiWritesTheTotient : Prop :=
  ∀ (m : Method) (rd ra : RegIdx) (len : Len),
    (encode (.phi m rd ra len)).toNat
      = 0x07 + 2 ^ 6 * m.code + 2 ^ 8 * rd.val + 2 ^ 12 * ra.val + 2 ^ 24 * len.val
    ∧ ∀ (s : State) (cw : Word) (regs : RegFile), s.engine = .busy ⟨cw, regs⟩ →
      (16 < ra.val + len.val → Fails (.phi m rd ra len) s .illegalCommand)
      ∧ (ra.val + len.val ≤ 16 → RangeSigned regs ra len → Fails (.phi m rd ra len) s .signedOperand)
      ∧ (ra.val + len.val ≤ 16 → ¬ RangeSigned regs ra len →
          ∀ fs, regs.rangeNums ra len = fs → (∀ f ∈ fs, f < 2 ^ s.config.nbits) →
          (m.code = 2 ∨ m.code = 3 → Fails (.phi m rd ra len) s .invalidMethod)
          ∧ (m.code < 2 → ¬ Factors fs → Fails (.phi m rd ra len) s .invalidInput)
          ∧ (m.code < 2 → Factors fs → 2 ^ s.config.nbits ≤ totientValue m fs →
              Fails (.phi m rd ra len) s .overflow)
          ∧ (m.code < 2 → Factors fs → totientValue m fs < 2 ^ s.config.nbits →
              WritesOne (.phi m rd ra len) s rd ⟨totientValue m fs, false⟩))

/-- 41_fold_derivation.md R116: DERIVD raises InvalidExponent, InvalidInput and NotCoprime in this
order, and otherwise writes the inverse of e modulo φ. -/
def Obligations.DerivdWritesTheExponent : Prop :=
  ∀ rd ra rb : RegIdx,
    (encode (.derivd rd ra rb)).toNat = 0x08 + 2 ^ 8 * rd.val + 2 ^ 12 * ra.val + 2 ^ 16 * rb.val
    ∧ ∀ (s : State) (cw : Word) (regs : RegFile), s.engine = .busy ⟨cw, regs⟩ →
      ((regs.read ra).sign = true ∨ (regs.read rb).sign = true →
          Fails (.derivd rd ra rb) s .signedOperand)
      ∧ ((regs.read ra).sign = false → (regs.read rb).sign = false →
          ∀ e φ : Nat, (regs.read ra).mag = e → (regs.read rb).mag = φ →
            (e = 0 → Fails (.derivd rd ra rb) s .invalidExponent)
            ∧ (e ≠ 0 → φ = 0 → Fails (.derivd rd ra rb) s .invalidInput)
            ∧ (e ≠ 0 → φ ≠ 0 → Nat.gcd e φ ≠ 1 → Fails (.derivd rd ra rb) s .notCoprime)
            ∧ (e ≠ 0 → φ ≠ 0 → Nat.gcd e φ = 1 →
                ∃ r, IsInverse e φ r ∧ WritesOne (.derivd rd ra rb) s rd ⟨r, false⟩))

/-- 41_fold_derivation.md R117: DERIVDF raises InvalidExponent, InvalidMethod, InvalidInput, Overflow
and NotCoprime in this order, and otherwise writes the inverse of e modulo the totient of the factors. -/
def Obligations.DerivdfWritesTheExponent : Prop :=
  ∀ (m : Method) (rd ra rb : RegIdx) (len : Len),
    (encode (.derivdf m rd ra rb len)).toNat
      = 0x20000008 + 2 ^ 6 * m.code + 2 ^ 8 * rd.val + 2 ^ 12 * ra.val + 2 ^ 16 * rb.val + 2 ^ 24 * len.val
    ∧ ∀ (s : State) (cw : Word) (regs : RegFile), s.engine = .busy ⟨cw, regs⟩ →
      (16 < rb.val + len.val → Fails (.derivdf m rd ra rb len) s .illegalCommand)
      ∧ (rb.val + len.val ≤ 16 → (regs.read ra).sign = true ∨ RangeSigned regs rb len →
          Fails (.derivdf m rd ra rb len) s .signedOperand)
      ∧ (rb.val + len.val ≤ 16 → (regs.read ra).sign = false → ¬ RangeSigned regs rb len →
          ∀ (e : Nat) (fs : List Nat), (regs.read ra).mag = e → regs.rangeNums rb len = fs →
          (∀ f ∈ fs, f < 2 ^ s.config.nbits) →
          (e = 0 → Fails (.derivdf m rd ra rb len) s .invalidExponent)
          ∧ (e ≠ 0 → m.code = 2 ∨ m.code = 3 → Fails (.derivdf m rd ra rb len) s .invalidMethod)
          ∧ (e ≠ 0 → m.code < 2 → ¬ Factors fs → Fails (.derivdf m rd ra rb len) s .invalidInput)
          ∧ (e ≠ 0 → m.code < 2 → Factors fs → 2 ^ s.config.nbits ≤ totientValue m fs →
              Fails (.derivdf m rd ra rb len) s .overflow)
          ∧ (e ≠ 0 → m.code < 2 → Factors fs → totientValue m fs < 2 ^ s.config.nbits →
              Nat.gcd e (totientValue m fs) ≠ 1 → Fails (.derivdf m rd ra rb len) s .notCoprime)
          ∧ (e ≠ 0 → m.code < 2 → Factors fs → totientValue m fs < 2 ^ s.config.nbits →
              Nat.gcd e (totientValue m fs) = 1 →
              ∃ r, IsInverse e (totientValue m fs) r
                ∧ WritesOne (.derivdf m rd ra rb len) s rd ⟨r, false⟩))

/-- 42_transform.md R120: MODEXP raises ZeroModulus for n = 0 and otherwise writes (x^k) mod n, where
x^0 = 1 for every x. -/
def Obligations.ModexpWritesThePower : Prop :=
  ∀ rd ra rb rn : RegIdx,
    (encode (.modexp rd ra rb rn)).toNat
      = 0x09 + 2 ^ 8 * rd.val + 2 ^ 12 * ra.val + 2 ^ 16 * rb.val + 2 ^ 20 * rn.val
    ∧ ∀ (s : State) (cw : Word) (regs : RegFile), s.engine = .busy ⟨cw, regs⟩ →
      ((regs.read ra).sign = true ∨ (regs.read rb).sign = true ∨ (regs.read rn).sign = true →
          Fails (.modexp rd ra rb rn) s .signedOperand)
      ∧ ((regs.read ra).sign = false → (regs.read rb).sign = false → (regs.read rn).sign = false →
          ((regs.read rn).mag = 0 → Fails (.modexp rd ra rb rn) s .zeroModulus)
          ∧ ((regs.read rn).mag ≠ 0 →
              WritesOne (.modexp rd ra rb rn) s rd
                ⟨(regs.read ra).mag ^ (regs.read rb).mag % (regs.read rn).mag, false⟩))

/-- 42_transform.md R121: MODMUL raises ZeroModulus for n = 0 and otherwise writes the full product
reduced modulo n. -/
def Obligations.ModmulWritesTheReducedProduct : Prop :=
  ∀ rd ra rb rn : RegIdx,
    (encode (.modmul rd ra rb rn)).toNat
      = 0x0A + 2 ^ 8 * rd.val + 2 ^ 12 * ra.val + 2 ^ 16 * rb.val + 2 ^ 20 * rn.val
    ∧ ∀ (s : State) (cw : Word) (regs : RegFile), s.engine = .busy ⟨cw, regs⟩ →
      ((regs.read ra).sign = true ∨ (regs.read rb).sign = true ∨ (regs.read rn).sign = true →
          Fails (.modmul rd ra rb rn) s .signedOperand)
      ∧ ((regs.read ra).sign = false → (regs.read rb).sign = false → (regs.read rn).sign = false →
          ((regs.read rn).mag = 0 → Fails (.modmul rd ra rb rn) s .zeroModulus)
          ∧ ((regs.read rn).mag ≠ 0 →
              WritesOne (.modmul rd ra rb rn) s rd
                ⟨(regs.read ra).mag * (regs.read rb).mag % (regs.read rn).mag, false⟩))

/-- 42_transform.md R122: MONTMUL raises ZeroModulus for n = 0, then EvenModulus, and otherwise writes
a·b·R⁻¹ mod n, R⁻¹ being the one r in [0, n) with (2^NBITS·r) mod n = 1 mod n. -/
def Obligations.MontmulWritesTheMontgomeryProduct : Prop :=
  ∀ rd ra rb rn : RegIdx,
    (encode (.montmul rd ra rb rn)).toNat
      = 0x0B + 2 ^ 8 * rd.val + 2 ^ 12 * ra.val + 2 ^ 16 * rb.val + 2 ^ 20 * rn.val
    ∧ ∀ (s : State) (cw : Word) (regs : RegFile), s.engine = .busy ⟨cw, regs⟩ →
      ((regs.read ra).sign = true ∨ (regs.read rb).sign = true ∨ (regs.read rn).sign = true →
          Fails (.montmul rd ra rb rn) s .signedOperand)
      ∧ ((regs.read ra).sign = false → (regs.read rb).sign = false → (regs.read rn).sign = false →
          ∀ n : Nat, (regs.read rn).mag = n →
          (n = 0 → Fails (.montmul rd ra rb rn) s .zeroModulus)
          ∧ (n ≠ 0 → n % 2 = 0 → Fails (.montmul rd ra rb rn) s .evenModulus)
          ∧ (n % 2 = 1 →
              ∃! r, r < n ∧ 2 ^ s.config.nbits * r % n = 1 % n
                ∧ WritesOne (.montmul rd ra rb rn) s rd
                    ⟨(regs.read ra).mag * (regs.read rb).mag * r % n, false⟩))

/-- The conversions of 42_transform.md R122: multiplying by R² mod n gives a·R mod n, and multiplying
by 1 gives the x with x·R = a modulo n. -/
def Obligations.MontmulConvertsInAndOut : Prop :=
  ∀ (s : State) (cw : Word) (regs : RegFile) (rd ra rb rn : RegIdx), s.engine = .busy ⟨cw, regs⟩ →
    (regs.read ra).sign = false → (regs.read rb).sign = false → (regs.read rn).sign = false →
    (regs.read rn).mag % 2 = 1 →
    ((regs.read rb).mag = 2 ^ (2 * s.config.nbits) % (regs.read rn).mag →
      WritesOne (.montmul rd ra rb rn) s rd
        ⟨(regs.read ra).mag * 2 ^ s.config.nbits % (regs.read rn).mag, false⟩)
    ∧ ((regs.read rb).mag = 1 →
      ∃ x, x < (regs.read rn).mag
        ∧ x * 2 ^ s.config.nbits % (regs.read rn).mag = (regs.read ra).mag % (regs.read rn).mag
        ∧ WritesOne (.montmul rd ra rb rn) s rd ⟨x, false⟩)

/-! ### The arithmetic under the commands -/

/-- 40_kernel.md R100: egcd is the recurrence and nothing else, its triple satisfies
a·u + b·v = g = gcd(a, b), and the iterative form answers the same triple. -/
def Obligations.EgcdIsTheRecurrence : Prop :=
  (∀ f : Nat → Nat → Nat × Int × Int,
    (∀ a b, f a b =
      if a = 0 then (b, 0, 1)
      else ((f (b % a) a).1, (f (b % a) a).2.2 - ((b / a : Nat) : Int) * (f (b % a) a).2.1, (f (b % a) a).2.1))
      ↔ f = egcd)
  ∧ ∀ a b : Nat, (egcd a b).1 = Nat.gcd a b
      ∧ (a : Int) * (egcd a b).2.1 + (b : Int) * (egcd a b).2.2 = ((egcd a b).1 : Int)
      ∧ egcdLoop a b = egcd a b

/-- 40_kernel.md R104: |u| ≤ max(b, 1) and |v| ≤ max(a, 1); so EGCD's Overflow check is unreachable
from states of a legal configuration whose registers hold NBITS bits. -/
def Obligations.EgcdCoefficientsAreBounded : Prop :=
  (∀ a b : Nat, (egcd a b).2.1.natAbs ≤ max b 1 ∧ (egcd a b).2.2.natAbs ≤ max a 1)
  ∧ ∀ (s : State) (snap : Snapshot) (rd ra rb : RegIdx), s.config.wf → s.engine = .busy snap →
      (∀ k, (snap.regs.read k).mag < 2 ^ s.config.nbits) → ¬ Fails (.egcd rd ra rb) s .overflow

/-- 41_fold_derivation.md R110: a fold runs left to right; an error of the operation stops it at that
step, a value that does not fit raises Overflow at that step, and only an empty foldl1 raises
EmptySequence of its own. -/
def Obligations.FoldsStopAtTheFirstFailingStep : Prop :=
  ∀ (nbits : Nat) (op : Nat → Nat → Except ErrCode Nat),
    (∀ x, foldChecked nbits op x [] = .ok x)
    ∧ fold1Checked nbits op [] = .error .emptySequence
    ∧ (∀ x xs, fold1Checked nbits op (x :: xs) = foldChecked nbits op x xs)
    ∧ ∀ (x y acc : Nat) (before after : List Nat), foldChecked nbits op x before = .ok acc →
        (∀ e, op acc y = .error e → foldChecked nbits op x (before ++ y :: after) = .error e)
        ∧ (∀ z, op acc y = .ok z → 2 ^ nbits ≤ z →
            foldChecked nbits op x (before ++ y :: after) = .error .overflow)
        ∧ (∀ z, op acc y = .ok z → z < 2 ^ nbits →
            foldChecked nbits op x (before ++ y :: after) = foldChecked nbits op z after)

/-- 41_fold_derivation.md R112: on validated factors that fit, phi is the method's formula, raises
Overflow exactly when that value does not fit, and satisfies 1 ≤ φ < n. -/
def Obligations.TotientIsTheFormula : Prop :=
  ∀ (nbits : Nat) (m : Method) (fs : List Nat), Factors fs → (∀ f ∈ fs, f < 2 ^ nbits) → m.code < 2 →
    (totientValue m fs < 2 ^ nbits → phi nbits m fs = .ok (totientValue m fs))
    ∧ (2 ^ nbits ≤ totientValue m fs → phi nbits m fs = .error .overflow)
    ∧ 1 ≤ totientValue m fs ∧ totientValue m fs < fs.prod

/-- The round trip of 42_transform.md R125, for distinct prime factors and either method. Message 0
under the list [2] is set apart: there φ = 1 and d = 0, and it comes back as 0^0 mod 2 = 1, so R125 as
written fails at that one message (log 27). -/
def Obligations.RsaRoundTrip : Prop :=
  (∀ (nbits : Nat) (m : Method) (fs : List Nat) (e n d msg : Nat),
    (∀ p ∈ fs, p.Prime) → fs.Nodup → fs ≠ [2] ∨ msg ≠ 0 → product nbits fs = .ok n →
    deriveFromFactors nbits m e fs = .ok d → msg < n → powMod (powMod msg e n) d n = msg)
  ∧ (deriveFromFactors 64 .euler 1 [2] = .ok 0 ∧ product 64 [2] = .ok 2 ∧ powMod (powMod 0 1 2) 0 2 = 1)

/-! ### Completion -/

/-- 60_exceptions.md R141, R142, R143: every command of a BUSY engine completes with exactly one
outcome. `Ok` writes none but the command's destination registers, `Err` writes no register, and
either leaves everything else as it was. -/
def Obligations.EveryCommandCompletes : Prop :=
  ∀ (i : Instr) (s : State) (snap : Snapshot), s.engine = .busy snap →
    ∃ t, exec i s = .next t
      ∧ ((Completed s t ∧ ∀ k, k ∉ destRegs i → t.regs.read k = s.regs.read k)
        ∨ ∃ e, FailedWith e s t)

/-- 60_exceptions.md R146: outcome and register writes are a function of the command word, the
snapshot's registers and NBITS, for every word: no other state of the machine reaches them
(10_state.md R36). -/
def Obligations.OutcomeDependsOnSnapshotAndWidth : Prop :=
  ∀ (s₁ s₂ t₁ t₂ : State) (snap : Snapshot), s₁.engine = .busy snap → s₂.engine = .busy snap →
    s₁.config.nwords = s₂.config.nwords → engineStep s₁ = .next t₁ → engineStep s₂ = .next t₂ →
    t₁.code = t₂.code
    ∧ (t₁.code = none → ∀ i, decode snap.cw = .ok i → ∀ k ∈ destRegs i, t₁.regs.read k = t₂.regs.read k)

/-! ### Host accesses -/

/-- 10_state.md R27 – R32, 20_memory.md R54, R57: a read of ID, CFG, CTRL, CMD, STATUS or ERRCODE is
exact in both phases and changes nothing in the NTE. -/
def Obligations.CsrReadsAreExact : Prop :=
  ∀ (s : State) (rest : List Turn),
    (s.AtAccess 0x000 .read rest → step s = .next (s.answered rest (.okRead 0x4E544531)))
    ∧ (s.AtAccess 0x004 .read rest → step s = .next
        (s.answered rest (.okRead (BitVec.ofNat 32 (s.config.nwords + 16 * 2 ^ 16 + 2 ^ 24)))))
    ∧ (s.AtAccess 0x008 .read rest → step s = .next
        (s.answered rest (.okRead (if s.ie then 1 else 0))))
    ∧ (s.AtAccess 0x00C .read rest → step s = .next (s.answered rest (.okRead s.cmd)))
    ∧ (s.AtAccess 0x010 .read rest → ∃ w : Word, step s = .next (s.answered rest (.okRead w))
        ∧ w.getLsbD 0 = s.busy ∧ w.getLsbD 1 = s.done ∧ w.getLsbD 2 = s.err ∧ w.getLsbD 3 = s.cmdOvr
        ∧ w.getLsbD 4 = s.winOvr ∧ ∀ j, 5 ≤ j → w.getLsbD j = false)
    ∧ (s.AtAccess 0x014 .read rest → step s = .next
        (s.answered rest (.okRead (BitVec.ofNat 32 (codeNumber s.code)))))

/-- 60_exceptions.md R140: the twelve outcome codes and their numbers; no other number is produced. -/
def Obligations.ErrorCodesAreTheTable : Prop :=
  codeNumber none = 0 ∧ codeNumber (some .invalidInput) = 1 ∧ codeNumber (some .invalidMethod) = 2
  ∧ codeNumber (some .invalidExponent) = 3 ∧ codeNumber (some .notCoprime) = 4
  ∧ codeNumber (some .emptySequence) = 5 ∧ codeNumber (some .lcmUndefined) = 6
  ∧ codeNumber (some .zeroModulus) = 7 ∧ codeNumber (some .evenModulus) = 8
  ∧ codeNumber (some .overflow) = 9 ∧ codeNumber (some .signedOperand) = 10
  ∧ codeNumber (some .illegalCommand) = 11
  ∧ ∀ s : State, s.errcodeWord.toNat ≤ 11

/-- 10_state.md R33: while IDLE, bit k of SIGN reads R[k].sign and bits [31:16] read 0; a read changes
nothing. -/
def Obligations.SignReadsTheSignBits : Prop :=
  ∀ (s : State) (rest : List Turn), s.AtAccess 0x018 .read rest → s.engine = .idle →
    ∃ w : Word, step s = .next (s.answered rest (.okRead w))
      ∧ (∀ k : RegIdx, w.getLsbD k.val = (s.regs.read k).sign) ∧ ∀ j, 16 ≤ j → w.getLsbD j = false

/-- 20_memory.md R49, R54: while IDLE a window read answers bits [32i+31 : 32i] of R[k].mag, bit j of
the word being bit 32i + j of the magnitude, and changes nothing. -/
def Obligations.IdleWindowReadIsExact : Prop :=
  ∀ (s : State) (rest : List Turn) (k : RegIdx) (i : Nat), i < s.config.nwords → i < 256 →
    s.AtAccess (0x1000 + 0x400 * k.val + 4 * i) .read rest → s.engine = .idle →
    ∃ w : Word, step s = .next (s.answered rest (.okRead w))
      ∧ ∀ j, j < 32 → w.getLsbD j = (s.regs.read k).mag.testBit (32 * i + j)

/-- 20_memory.md R54, R57: while BUSY a window read or a SIGN read answers OK, and no NTE state changes;
the word is UNSPECIFIED, the model's next free draw (log 5), whatever the registers hold. -/
def Obligations.BusyReadsAreUnspecified : Prop :=
  ∀ (s : State) (rest : List Turn) (snap : Snapshot), s.engine = .busy snap →
    (∀ (k : RegIdx) (i : Nat), i < s.config.nwords → i < 256 →
      s.AtAccess (0x1000 + 0x400 * k.val + 4 * i) .read rest →
      step s = .next { s.answered rest (.okRead (Config.freeWord s.draws)) with draws := s.draws + 1 })
    ∧ (s.AtAccess 0x018 .read rest →
      step s = .next { s.answered rest (.okRead (Config.freeWord s.draws)) with draws := s.draws + 1 })

/-- 20_memory.md R51: while IDLE a window write replaces word i of R[k].mag and clears its sign; the
other words, the other registers and everything else are unchanged. -/
def Obligations.IdleWindowWriteReplacesOneWord : Prop :=
  ∀ (s : State) (rest : List Turn) (k : RegIdx) (i : Nat) (w : Word), i < s.config.nwords → i < 256 →
    s.AtAccess (0x1000 + 0x400 * k.val + 4 * i) (.write w) rest → s.engine = .idle →
    ∃ t, step s = .next t
      ∧ magWord (t.regs.read k).mag i = w
      ∧ (∀ j, j ≠ i → magWord (t.regs.read k).mag j = magWord (s.regs.read k).mag j)
      ∧ (t.regs.read k).sign = false
      ∧ (∀ k', k' ≠ k → t.regs.read k' = s.regs.read k')
      ∧ t = { s.answered rest .okWrite with regs := t.regs }

/-- 20_memory.md R53: while BUSY a window write answers OK, changes no operand register and sets
WIN_OVR. -/
def Obligations.BusyWindowWriteIsDropped : Prop :=
  ∀ (s : State) (rest : List Turn) (snap : Snapshot) (k : RegIdx) (i : Nat) (w : Word),
    i < s.config.nwords → i < 256 →
    s.AtAccess (0x1000 + 0x400 * k.val + 4 * i) (.write w) rest → s.engine = .busy snap →
    step s = .next { s.answered rest .okWrite with winOvr := true }

/-- 20_memory.md R52: a CMD write while IDLE is accepted, whatever the word: CMD and the snapshot take
it, BUSY is set, DONE cleared, ERR and ERRCODE left alone. While BUSY it is dropped with CMD_OVR. -/
def Obligations.CmdWriteIsAcceptedOrDropped : Prop :=
  ∀ (s : State) (rest : List Turn) (w : Word), s.AtAccess 0x00C (.write w) rest →
    (s.engine = .idle → step s = .next
      { s.answered rest .okWrite with cmd := w, engine := .busy ⟨w, s.regs⟩, done := false })
    ∧ ∀ snap, s.engine = .busy snap → step s = .next { s.answered rest .okWrite with cmdOvr := true }

/-- 10_state.md R31: a STATUS write clears each of DONE, ERR, CMD_OVR and WIN_OVR whose bit is 1 and
nothing else; bit 0 and bits [31:5] are ignored. -/
def Obligations.StatusWriteClearsWrittenOnes : Prop :=
  ∀ (s : State) (rest : List Turn) (w : Word), s.AtAccess 0x010 (.write w) rest →
    ∃ t, step s = .next t
      ∧ (t.done = true ↔ s.done = true ∧ w.getLsbD 1 = false)
      ∧ (t.err = true ↔ s.err = true ∧ w.getLsbD 2 = false)
      ∧ (t.cmdOvr = true ↔ s.cmdOvr = true ∧ w.getLsbD 3 = false)
      ∧ (t.winOvr = true ↔ s.winOvr = true ∧ w.getLsbD 4 = false)
      ∧ t = { s.answered rest .okWrite with
              done := t.done, err := t.err, cmdOvr := t.cmdOvr, winOvr := t.winOvr }

/-- 10_state.md R29, 70_reset_and_hazards.md R171, R172: a CTRL write with SRST = 0 sets IE to bit 0
and changes nothing else; with SRST = 1 it answers OK, resets in either phase, discards its other bits
and abandons a running command, each magnitude word becoming a free draw of its own (log 4). -/
def Obligations.CtrlWriteSetsIeOrResets : Prop :=
  ∀ (s : State) (rest : List Turn) (w : Word), s.AtAccess 0x008 (.write w) rest →
    (w.getLsbD 1 = false → step s = .next { s.answered rest .okWrite with ie := w.getLsbD 0 })
    ∧ (w.getLsbD 1 = true → ∃ t, step s = .next t ∧ t.IsReset ∧ t.config = s.config
        ∧ t.agenda = rest ∧ t.response = some .okWrite
        ∧ ∀ (k : RegIdx) (i : Nat), i < s.config.nwords →
            magWord (t.regs.read k).mag i = Config.freeWord (s.draws + k.val * s.config.nwords + i))

/-- 20_memory.md R56: a write to ID, CFG, ERRCODE or SIGN answers OK and changes nothing. -/
def Obligations.ReadOnlyWritesAreIgnored : Prop :=
  ∀ (s : State) (rest : List Turn) (w : Word) (off : Nat),
    off = 0x000 ∨ off = 0x004 ∨ off = 0x014 ∨ off = 0x018 → s.AtAccess off (.write w) rest →
    step s = .next (s.answered rest .okWrite)

/-- 60_exceptions.md R147, 20_memory.md R47, R48, R50: an access in the block of another width, at a
misaligned or reserved offset, or at a word i ≥ NWORDS gets BUSERR and changes nothing; where the host
traps on it, it is a host fault. -/
def Obligations.BusErrorChangesNothing : Prop :=
  ∀ (s : State) (rest : List Turn) (width : Width) (off : Nat) (op : BusOp),
    off < 0x8000 →
    (width ≠ .w32 ∨ off % 4 ≠ 0 ∨ (0x01C ≤ off ∧ off < 0x1000) ∨ 0x5000 ≤ off
      ∨ ∃ k i : Nat, k < 16 ∧ s.config.nwords ≤ i ∧ i < 256 ∧ off = 0x1000 + 0x400 * k + 4 * i) →
    (s.agenda = .host ⟨width, s.config.base + off, op⟩ .ignores :: rest →
      step s = .next (s.answered rest .busErr))
    ∧ (s.agenda = .host ⟨width, s.config.base + off, op⟩ .traps :: rest →
      step s = .fault (.hostBusError ⟨width, s.config.base + off, op⟩))

/-- 60_exceptions.md R147, third bullet: an access outside [BASE, BASE + 0x8000) is a host fault,
whatever its width and kind. That a host which ignores BUSERR faults too is the model's reading: the
NTE is not selected and gives no BUSERR (log 9). -/
def Obligations.AccessOutsideTheBlockIsAHostFault : Prop :=
  ∀ (s : State) (a : Access) (onErr : OnBusErr) (rest : List Turn), s.agenda = .host a onErr :: rest →
    a.addr < s.config.base ∨ s.config.base + 0x8000 ≤ a.addr → step s = .fault (.outsideBlock a)

/-- The register map of 20_memory.md R46: an aligned offset of the block is exactly one CSR, one
window word, or answers nothing. -/
def Obligations.RegisterMapIsComplete : Prop :=
  ∀ nwords off : Nat, nwords ≤ 256 →
    (∀ c : Csr, targetOf nwords off = some (.csr c) ↔ off = c.offset)
    ∧ ∀ (k : RegIdx) (i : Nat), targetOf nwords off = some (.window k i) ↔ i < nwords ∧ off = windowOffset k i

/-! ### Interrupt and reset -/

/-- 10_state.md R34, 60_exceptions.md R149: IRQ is IE ∧ DONE; a completion raises it under IE, and a
W1C of DONE, an acceptance, clearing IE, a soft reset (whatever its IE bit) and a hardware reset lower
it. While it is 1, and only then, `irqRequest` reports the configuration's IRQ_ROUTE: routing is OPEN in
R149, and that report is the model's choice (log 23). -/
def Obligations.IrqFollowsIeAndDone : Prop :=
  (∀ s : State, (s.irq = true ↔ s.ie = true ∧ s.done = true)
    ∧ (s.irq = true → s.irqRequest = some s.config.irqRoute)
    ∧ (s.irq = false → s.irqRequest = none))
  ∧ (∀ (i : Instr) (s t : State), exec i s = .next t → t.irq = s.ie)
  ∧ ∀ (s t : State) (rest : List Turn), step s = .next t →
      (∀ w : Word, s.AtAccess 0x010 (.write w) rest → w.getLsbD 1 = true → t.irq = false)
      ∧ (∀ w : Word, s.AtAccess 0x00C (.write w) rest → s.engine = .idle → t.irq = false)
      ∧ (∀ w : Word, s.AtAccess 0x008 (.write w) rest → w.getLsbD 0 = false ∨ w.getLsbD 1 = true →
          t.irq = false)
      ∧ (s.agenda = .hardReset :: rest → t.irq = false)

/-- 70_reset_and_hazards.md R170, R172: a hardware reset is taken in either phase, puts every piece of
state at its reset value, each magnitude word a free draw of its own (log 4), and abandons a running
command. -/
def Obligations.HardResetResetsEverything : Prop :=
  ∀ (s : State) (rest : List Turn), s.agenda = .hardReset :: rest →
    ∃ t, step s = .next t ∧ t.IsReset ∧ t.config = s.config ∧ t.agenda = rest
      ∧ ∀ (k : RegIdx) (i : Nat), i < s.config.nwords →
          magWord (t.regs.read k).mag i = Config.freeWord (s.draws + k.val * s.config.nwords + i)

/-- The state the model starts from is a reset state of the reference configuration, NBITS = 4096
(10_state.md R37; 00_scope.md R9). That its magnitudes are 0 is the model's choice (log 3) and is not
claimed. -/
def Obligations.StartsInAResetState : Prop :=
  State.reset.IsReset ∧ State.reset.config.nbits = 4096 ∧ State.reset.config.wf

/-- The invariant of the machine holds right after reset (10_state.md R23, R26, R37). -/
def Obligations.ResetMeetsTheInvariant : Prop := State.reset.Inv

/-! ### The whole machine -/

/-- Every step keeps the invariant: legal registers (10_state.md R22, R23), the snapshot equal to the
live registers and to CMD (R26, R30), DONE = 0 while BUSY (R31). -/
def Obligations.StepKeepsTheInvariant : Prop :=
  ∀ s t : State, s.Inv → step s = .next t → t.Inv

/-- No step changes the parameters (00_scope.md R5, R8; log 1). -/
def Obligations.ConfigurationNeverChanges : Prop :=
  ∀ s t : State, step s = .next t → t.config = s.config

/-- 10_state.md R24: an operand register changes only by a window write while IDLE, by the success of
a command whose destination it is, or by a reset. -/
def Obligations.OnlyThreeThingsWriteRegisters : Prop :=
  ∀ (s t : State) (k : RegIdx), step s = .next t → t.regs.read k ≠ s.regs.read k →
    (∃ rest i w, i < s.config.nwords ∧ s.engine = .idle
        ∧ s.AtAccess (windowOffset k i) (.write w) rest
        ∧ t.regs.read k = ⟨setMagWord (s.regs.read k).mag i w, false⟩)
    ∨ (∃ snap i, s.engine = .busy snap ∧ decode snap.cw = .ok i ∧ k ∈ destRegs i
        ∧ t.engine = .idle ∧ t.code = none)
    ∨ (∃ turn rest, s.agenda = turn :: rest ∧ turn.Resets s.config) ∧ t.IsReset

/-- 20_memory.md R61, 60_exceptions.md R153, 70_reset_and_hazards.md R172: a running command keeps its
word and its operands until it completes on the engine's turn or a reset abandons it; nothing else
ends or alters it. -/
def Obligations.RunningCommandCannotBeChanged : Prop :=
  ∀ (s t : State) (snap : Snapshot), s.engine = .busy snap → step s = .next t →
    (t.engine = .busy snap ∧ t.regs = s.regs ∧ t.cmd = s.cmd)
    ∨ ((s.agenda = [] ∨ ∃ rest, s.agenda = .engine :: rest) ∧ t.engine = .idle ∧ t.done = true)
    ∨ ((∃ turn rest, s.agenda = turn :: rest ∧ turn.Resets s.config) ∧ t.IsReset)

/-- 70_reset_and_hazards.md R180: an accepted command completes after finitely many steps unless a
reset intervenes: however the other turns are listed, at the latest once they are used up. -/
def Obligations.AcceptedCommandCompletes : Prop :=
  ∀ (s : State) (snap : Snapshot), s.engine = .busy snap →
    (∀ x ∈ s.agenda, x.Harmless s.config ∧ ¬ x.Resets s.config) →
    ∃ (n : Nat) (t : State), n ≤ s.agenda.length + 1
      ∧ Host.Core.run Sys2Proof.core n s = .next t ∧ t.engine = .idle ∧ t.done = true

/-- No step stops but a BUSERR the host traps on and an access outside the block: a harmless next turn,
or none, answers a next state (60_exceptions.md R147, R151). -/
def Obligations.HarmlessTurnsNeverStop : Prop :=
  ∀ s : State, (∀ x ∈ s.agenda.head?, x.Harmless s.config) → ∃ t, step s = .next t

/-- 42_transform.md R124: a host sequence stops at the first non-zero CODE and reports it unchanged:
the commands before it succeeded, and none after it was issued. -/
def Obligations.HostSequenceStopsAtTheFirstError : Prop :=
  ∀ (cmds : List Instr) (s t : State) (e : ErrCode), runSequence cmds s = .next (t, some e) →
    t.code = some e
    ∧ ∃ before i after u, cmds = before ++ i :: after ∧ runSequence before s = .next (u, none)
        ∧ issueAndWait i u = .next t
end

