-- ==== Sys2Proof/Laws/State.lean ====
section
/-! SUPPORT. One lemma per field per update of the state, true by rfl. -/

namespace Sys2Proof.Laws

open Sys2Proof Sys2Proof.Machine

@[simp] theorem completeOk_config (s : State) (ws : List Write) : (s.completeOk ws).config = s.config := rfl
@[simp] theorem completeOk_regs (s : State) (ws : List Write) : (s.completeOk ws).regs = applyWrites s.regs ws := rfl
@[simp] theorem completeOk_engine (s : State) (ws : List Write) : (s.completeOk ws).engine = .idle := rfl
@[simp] theorem completeOk_ie (s : State) (ws : List Write) : (s.completeOk ws).ie = s.ie := rfl
@[simp] theorem completeOk_cmd (s : State) (ws : List Write) : (s.completeOk ws).cmd = s.cmd := rfl
@[simp] theorem completeOk_done (s : State) (ws : List Write) : (s.completeOk ws).done = true := rfl
@[simp] theorem completeOk_err (s : State) (ws : List Write) : (s.completeOk ws).err = s.err := rfl
@[simp] theorem completeOk_cmdOvr (s : State) (ws : List Write) : (s.completeOk ws).cmdOvr = s.cmdOvr := rfl
@[simp] theorem completeOk_winOvr (s : State) (ws : List Write) : (s.completeOk ws).winOvr = s.winOvr := rfl
@[simp] theorem completeOk_code (s : State) (ws : List Write) : (s.completeOk ws).code = none := rfl
@[simp] theorem completeOk_agenda (s : State) (ws : List Write) : (s.completeOk ws).agenda = s.agenda := rfl
@[simp] theorem completeOk_response (s : State) (ws : List Write) : (s.completeOk ws).response = s.response := rfl
@[simp] theorem completeOk_draws (s : State) (ws : List Write) : (s.completeOk ws).draws = s.draws := rfl

@[simp] theorem completeErr_config (s : State) (e : ErrCode) : (s.completeErr e).config = s.config := rfl
@[simp] theorem completeErr_regs (s : State) (e : ErrCode) : (s.completeErr e).regs = s.regs := rfl
@[simp] theorem completeErr_engine (s : State) (e : ErrCode) : (s.completeErr e).engine = .idle := rfl
@[simp] theorem completeErr_ie (s : State) (e : ErrCode) : (s.completeErr e).ie = s.ie := rfl
@[simp] theorem completeErr_cmd (s : State) (e : ErrCode) : (s.completeErr e).cmd = s.cmd := rfl
@[simp] theorem completeErr_done (s : State) (e : ErrCode) : (s.completeErr e).done = true := rfl
@[simp] theorem completeErr_err (s : State) (e : ErrCode) : (s.completeErr e).err = true := rfl
@[simp] theorem completeErr_cmdOvr (s : State) (e : ErrCode) : (s.completeErr e).cmdOvr = s.cmdOvr := rfl
@[simp] theorem completeErr_winOvr (s : State) (e : ErrCode) : (s.completeErr e).winOvr = s.winOvr := rfl
@[simp] theorem completeErr_code (s : State) (e : ErrCode) : (s.completeErr e).code = some e := rfl
@[simp] theorem completeErr_agenda (s : State) (e : ErrCode) : (s.completeErr e).agenda = s.agenda := rfl
@[simp] theorem completeErr_response (s : State) (e : ErrCode) : (s.completeErr e).response = s.response := rfl
@[simp] theorem completeErr_draws (s : State) (e : ErrCode) : (s.completeErr e).draws = s.draws := rfl

@[simp] theorem accept_config (s : State) (w : Word) : (s.accept w).config = s.config := rfl
@[simp] theorem accept_regs (s : State) (w : Word) : (s.accept w).regs = s.regs := rfl
@[simp] theorem accept_engine (s : State) (w : Word) : (s.accept w).engine = .busy ⟨w, s.regs⟩ := rfl
@[simp] theorem accept_ie (s : State) (w : Word) : (s.accept w).ie = s.ie := rfl
@[simp] theorem accept_cmd (s : State) (w : Word) : (s.accept w).cmd = w := rfl
@[simp] theorem accept_done (s : State) (w : Word) : (s.accept w).done = false := rfl
@[simp] theorem accept_err (s : State) (w : Word) : (s.accept w).err = s.err := rfl
@[simp] theorem accept_cmdOvr (s : State) (w : Word) : (s.accept w).cmdOvr = s.cmdOvr := rfl
@[simp] theorem accept_winOvr (s : State) (w : Word) : (s.accept w).winOvr = s.winOvr := rfl
@[simp] theorem accept_code (s : State) (w : Word) : (s.accept w).code = s.code := rfl
@[simp] theorem accept_agenda (s : State) (w : Word) : (s.accept w).agenda = s.agenda := rfl
@[simp] theorem accept_response (s : State) (w : Word) : (s.accept w).response = s.response := rfl
@[simp] theorem accept_draws (s : State) (w : Word) : (s.accept w).draws = s.draws := rfl

@[simp] theorem resetAll_config (s : State) : (s.resetAll).config = s.config := by simp only [State.resetAll]
@[simp] theorem resetAll_regs (s : State) : (s.resetAll).regs = drawRegs s.config.nwords s.draws := rfl
@[simp] theorem resetAll_engine (s : State) : (s.resetAll).engine = .idle := rfl
@[simp] theorem resetAll_ie (s : State) : (s.resetAll).ie = false := rfl
@[simp] theorem resetAll_cmd (s : State) : (s.resetAll).cmd = 0 := rfl
@[simp] theorem resetAll_done (s : State) : (s.resetAll).done = false := rfl
@[simp] theorem resetAll_err (s : State) : (s.resetAll).err = false := rfl
@[simp] theorem resetAll_cmdOvr (s : State) : (s.resetAll).cmdOvr = false := rfl
@[simp] theorem resetAll_winOvr (s : State) : (s.resetAll).winOvr = false := rfl
@[simp] theorem resetAll_code (s : State) : (s.resetAll).code = none := rfl
@[simp] theorem resetAll_agenda (s : State) : (s.resetAll).agenda = s.agenda := by simp only [State.resetAll]
@[simp] theorem resetAll_response (s : State) : (s.resetAll).response = s.response := by simp only [State.resetAll]
@[simp] theorem resetAll_draws (s : State) : (s.resetAll).draws = s.draws + NREGS * s.config.nwords := rfl

@[simp] theorem writeStatus_config (s : State) (w : Word) : (s.writeStatus w).config = s.config := rfl
@[simp] theorem writeStatus_regs (s : State) (w : Word) : (s.writeStatus w).regs = s.regs := rfl
@[simp] theorem writeStatus_engine (s : State) (w : Word) : (s.writeStatus w).engine = s.engine := rfl
@[simp] theorem writeStatus_ie (s : State) (w : Word) : (s.writeStatus w).ie = s.ie := rfl
@[simp] theorem writeStatus_cmd (s : State) (w : Word) : (s.writeStatus w).cmd = s.cmd := rfl
@[simp] theorem writeStatus_done (s : State) (w : Word) : (s.writeStatus w).done = w1c s.done (w.getLsbD 1) := rfl
@[simp] theorem writeStatus_err (s : State) (w : Word) : (s.writeStatus w).err = w1c s.err (w.getLsbD 2) := rfl
@[simp] theorem writeStatus_cmdOvr (s : State) (w : Word) : (s.writeStatus w).cmdOvr = w1c s.cmdOvr (w.getLsbD 3) := rfl
@[simp] theorem writeStatus_winOvr (s : State) (w : Word) : (s.writeStatus w).winOvr = w1c s.winOvr (w.getLsbD 4) := rfl
@[simp] theorem writeStatus_code (s : State) (w : Word) : (s.writeStatus w).code = s.code := rfl
@[simp] theorem writeStatus_agenda (s : State) (w : Word) : (s.writeStatus w).agenda = s.agenda := rfl
@[simp] theorem writeStatus_response (s : State) (w : Word) : (s.writeStatus w).response = s.response := rfl
@[simp] theorem writeStatus_draws (s : State) (w : Word) : (s.writeStatus w).draws = s.draws := rfl

@[simp] theorem answered_config (s : State) (rest : List Turn) (r : Response) : (s.answered rest r).config = s.config := rfl
@[simp] theorem answered_regs (s : State) (rest : List Turn) (r : Response) : (s.answered rest r).regs = s.regs := rfl
@[simp] theorem answered_engine (s : State) (rest : List Turn) (r : Response) : (s.answered rest r).engine = s.engine := rfl
@[simp] theorem answered_ie (s : State) (rest : List Turn) (r : Response) : (s.answered rest r).ie = s.ie := rfl
@[simp] theorem answered_cmd (s : State) (rest : List Turn) (r : Response) : (s.answered rest r).cmd = s.cmd := rfl
@[simp] theorem answered_done (s : State) (rest : List Turn) (r : Response) : (s.answered rest r).done = s.done := rfl
@[simp] theorem answered_err (s : State) (rest : List Turn) (r : Response) : (s.answered rest r).err = s.err := rfl
@[simp] theorem answered_cmdOvr (s : State) (rest : List Turn) (r : Response) : (s.answered rest r).cmdOvr = s.cmdOvr := rfl
@[simp] theorem answered_winOvr (s : State) (rest : List Turn) (r : Response) : (s.answered rest r).winOvr = s.winOvr := rfl
@[simp] theorem answered_code (s : State) (rest : List Turn) (r : Response) : (s.answered rest r).code = s.code := rfl
@[simp] theorem answered_agenda (s : State) (rest : List Turn) (r : Response) : (s.answered rest r).agenda = rest := rfl
@[simp] theorem answered_response (s : State) (rest : List Turn) (r : Response) : (s.answered rest r).response = some r := rfl
@[simp] theorem answered_draws (s : State) (rest : List Turn) (r : Response) : (s.answered rest r).draws = s.draws := rfl

@[simp] theorem draw_word (s : State) : s.draw.2 = Config.freeWord s.draws := rfl

@[simp] theorem draw_state (s : State) : s.draw.1 = { s with draws := s.draws + 1 } := rfl

@[simp] theorem complete_ok (s : State) (ws : List Write) : s.complete (.ok ws) = s.completeOk ws := rfl

@[simp] theorem complete_error (s : State) (e : ErrCode) : s.complete (.error e) = s.completeErr e := rfl

theorem completeIllegal_eq (s : State) : s.completeIllegal = s.completeErr .illegalCommand := rfl

theorem busy_eq_false_iff (s : State) : s.busy = false ↔ s.engine = .idle := by
  unfold State.busy; cases s.engine <;> simp

theorem busy_eq_true_iff (s : State) : s.busy = true ↔ ∃ snap, s.engine = .busy snap := by
  unfold State.busy; cases s.engine <;> simp

theorem busy_of_idle {s : State} (h : s.engine = .idle) : s.busy = false := (busy_eq_false_iff s).2 h

theorem busy_of_busy {s : State} {snap : Snapshot} (h : s.engine = .busy snap) : s.busy = true :=
  (busy_eq_true_iff s).2 ⟨snap, h⟩

/-- A successful completion keeps everything R142 does not name. -/
theorem completed_completeOk (s : State) (ws : List Write) : Completed s (s.completeOk ws) where
  config := rfl
  ie := rfl
  cmd := rfl
  cmdOvr := rfl
  winOvr := rfl
  agenda := rfl
  response := rfl
  draws := rfl
  code := rfl
  idle := rfl
  done := rfl
  err := rfl

/-- A completion with an error keeps everything R143 does not name, the registers included. -/
theorem failedWith_completeErr (s : State) (e : ErrCode) : FailedWith e s (s.completeErr e) where
  config := rfl
  ie := rfl
  cmd := rfl
  cmdOvr := rfl
  winOvr := rfl
  agenda := rfl
  response := rfl
  draws := rfl
  regs := rfl
  code := rfl
  idle := rfl
  done := rfl
  err := rfl

end Sys2Proof.Laws
end

