-- ==== Sys2Proof/Laws/Operands.lean ====
section
/-! SUPPORT. Registers, their words and the deferred writes: read after write, and what stays. -/

namespace Sys2Proof.Laws

open Sys2Proof Sys2Proof.Machine

@[simp] theorem read_write_same (r : RegFile) (k : RegIdx) (v : OpReg) : (r.write k v).read k = v := by
  simp [RegFile.read, RegFile.write, Vector.get_eq_getElem]

theorem read_write_other (r : RegFile) {k k' : RegIdx} (v : OpReg) (h : k' ≠ k) :
    (r.write k v).read k' = r.read k' := by
  have : k.val ≠ k'.val := fun e => h (Fin.ext e.symm)
  simp [RegFile.read, RegFile.write, Vector.get_eq_getElem, this]

theorem read_write (r : RegFile) (k k' : RegIdx) (v : OpReg) :
    (r.write k v).read k' = if k' = k then v else r.read k' := by
  split
  · next h => subst h; exact read_write_same r k' v
  · next h => exact read_write_other r v h

@[simp] theorem applyWrites_nil (r : RegFile) : applyWrites r [] = r := rfl

@[simp] theorem applyWrites_cons (r : RegFile) (k : RegIdx) (v : OpReg) (ws : List Write) :
    applyWrites r ((k, v) :: ws) = applyWrites (r.write k v) ws := rfl

/-- A register no deferred write names stays. -/
theorem read_applyWrites_other (ws : List Write) (r : RegFile) (k : RegIdx)
    (h : ∀ w ∈ ws, w.1 ≠ k) : (applyWrites r ws).read k = r.read k := by
  induction ws generalizing r with
  | nil => rfl
  | cons w ws ih =>
    obtain ⟨k', v⟩ := w
    have hk : k ≠ k' := fun e => h (k', v) (by simp) e.symm
    rw [applyWrites_cons, ih _ fun w hw => h w (by simp [hw]), read_write_other _ _ hk]

/-- Writes that agree on what they name give registers that agree there. -/
theorem read_applyWrites_congr (ws : List Write) (r r' : RegFile) (k : RegIdx)
    (h : ∃ w ∈ ws, w.1 = k) : (applyWrites r ws).read k = (applyWrites r' ws).read k := by
  induction ws generalizing r r' with
  | nil => simp at h
  | cons w ws ih =>
    obtain ⟨k', v⟩ := w
    by_cases hin : ∃ w ∈ ws, w.1 = k
    · exact ih _ _ hin
    · have hk : k' = k := by
        obtain ⟨w, hw, e⟩ := h
        rcases List.mem_cons.1 hw with rfl | hw
        · exact e
        · exact absurd ⟨w, hw, e⟩ hin
      have hout : ∀ w ∈ ws, w.1 ≠ k := fun w hw e => hin ⟨w, hw, e⟩
      rw [applyWrites_cons, applyWrites_cons, read_applyWrites_other ws _ k hout,
        read_applyWrites_other ws _ k hout, hk, read_write_same, read_write_same]

/-- A property of every value written and of every register read before holds of every register after. -/
theorem applyWrites_forall (p : OpReg → Prop) (ws : List Write) (r : RegFile)
    (hr : ∀ k, p (r.read k)) (hw : ∀ w ∈ ws, p w.2) : ∀ k, p ((applyWrites r ws).read k) := by
  induction ws generalizing r with
  | nil => exact hr
  | cons w ws ih =>
    obtain ⟨k', v⟩ := w
    refine ih _ (fun k => ?_) fun w h => hw w (by simp [h])
    rw [read_write]
    split
    · exact hw (k', v) (by simp)
    · exact hr k

theorem ofNat_ok {nbits v : Nat} (h : v < 2 ^ nbits) : (OpReg.ofNat v).Ok nbits :=
  ⟨h, fun hs => by cases hs⟩

theorem ofInt_ok {nbits : Nat} {v : Int} (h : v.natAbs < 2 ^ nbits) : (OpReg.ofInt v).Ok nbits :=
  ⟨h, fun hs => by have : v < 0 := by simpa [OpReg.ofInt] using hs
                   show v.natAbs ≠ 0; omega⟩

theorem value_ofInt (v : Int) : (OpReg.ofInt v).value = v := by
  unfold OpReg.value OpReg.ofInt
  by_cases h : v < 0
  · have : ((v.natAbs : Nat) : Int) = -v := by omega
    simp only [h, decide_true, if_true, this, neg_neg]
  · have : ((v.natAbs : Nat) : Int) = v := by omega
    simp only [h, decide_false, Bool.false_eq_true, if_false, this]

/-- A word of a magnitude, bit by bit (20_memory.md R49). -/
theorem magWord_getLsbD (mag i j : Nat) (h : j < 32) : (magWord mag i).getLsbD j = mag.testBit (32 * i + j) := by
  rw [magWord, BitVec.getLsbD_ofNat, Nat.testBit_div_two_pow, Nat.add_comm]
  simp [h]

/-- A digit and what stands below it stay below the next digit's weight. -/
theorem digit_lt {d b p r : Nat} (hd : d < b) (hr : r < p) : d * p + r < p * b := by
  have h : (d + 1) * p ≤ b * p := Nat.mul_le_mul_right p hd
  rw [Nat.add_mul, Nat.one_mul] at h
  rw [Nat.mul_comm p b]; omega

theorem two_pow_word (i : Nat) : (2 : Nat) ^ (32 * (i + 1)) = 2 ^ (32 * i) * 2 ^ 32 := by
  rw [Nat.mul_add, Nat.mul_one, Nat.pow_add]

/-- The three parts of a magnitude with a replaced word, apart (20_memory.md R51). -/
theorem setMagWord_testBit (mag i : Nat) (w : Word) (j : Nat) :
    (setMagWord mag i w).testBit j
      = if j < 32 * i then mag.testBit j
        else if j < 32 * (i + 1) then w.getLsbD (j - 32 * i) else mag.testBit j := by
  have hlow : mag % 2 ^ (32 * i) < 2 ^ (32 * i) := Nat.mod_lt _ (by positivity)
  have hmid : w.toNat * 2 ^ (32 * i) + mag % 2 ^ (32 * i) < 2 ^ (32 * (i + 1)) := by
    rw [two_pow_word]; exact digit_lt w.isLt hlow
  have e : setMagWord mag i w
      = 2 ^ (32 * (i + 1)) * (mag / 2 ^ (32 * (i + 1))) + (2 ^ (32 * i) * w.toNat + mag % 2 ^ (32 * i)) := by
    unfold setMagWord
    rw [Nat.mul_comm (2 ^ (32 * (i + 1))), Nat.mul_comm (2 ^ (32 * i)), Nat.add_assoc]
  rw [e, Nat.testBit_two_pow_mul_add _ (by rw [Nat.mul_comm]; exact hmid),
    Nat.testBit_two_pow_mul_add _ hlow]
  by_cases h1 : j < 32 * i
  · have h2 : j < 32 * (i + 1) := by omega
    simp [h1, h2, Nat.testBit_mod_two_pow]
  · by_cases h2 : j < 32 * (i + 1)
    · simp [h1, h2, BitVec.testBit_toNat]
    · have e : j - 32 * (i + 1) + 32 * (i + 1) = j := by omega
      simp only [h1, h2, if_false]
      rw [Nat.testBit_div_two_pow, e]

/-- The replaced word reads as written. -/
theorem magWord_setMagWord_same (mag i : Nat) (w : Word) : magWord (setMagWord mag i w) i = w := by
  apply BitVec.eq_of_getLsbD_eq
  intro j hj
  have e : 32 * i + j - 32 * i = j := by omega
  rw [magWord_getLsbD _ _ _ hj, setMagWord_testBit, if_neg (by omega), if_pos (by omega), e]

/-- The other words read as before. -/
theorem magWord_setMagWord_other (mag : Nat) {i i' : Nat} (w : Word) (h : i' ≠ i) :
    magWord (setMagWord mag i w) i' = magWord mag i' := by
  apply BitVec.eq_of_getLsbD_eq
  intro j hj
  rw [magWord_getLsbD _ _ _ hj, magWord_getLsbD _ _ _ hj, setMagWord_testBit]
  rcases Nat.lt_or_gt_of_ne h with h | h
  · rw [if_pos (by omega)]
  · rw [if_neg (by omega), if_neg (by omega)]

/-- Replacing a word inside NBITS keeps the magnitude inside NBITS. -/
theorem setMagWord_lt {mag i n : Nat} (w : Word) (hi : i < n) (h : mag < 2 ^ (32 * n)) :
    setMagWord mag i w < 2 ^ (32 * n) := by
  apply Nat.lt_pow_two_of_testBit
  intro j hj
  rw [setMagWord_testBit, if_neg (by omega), if_neg (by omega)]
  exact Nat.testBit_lt_two_pow (lt_of_lt_of_le h (Nat.pow_le_pow_right (by omega) hj))

theorem drawMag_lt (start n : Nat) : drawMag start n < 2 ^ (32 * n) := by
  induction n with
  | zero => simp [drawMag]
  | succ n ih =>
    rw [drawMag, two_pow_word, Nat.add_comm]
    exact digit_lt (Config.freeWord (start + n)).isLt ih

/-- Each word of a drawn magnitude is a draw of its own. -/
theorem magWord_drawMag (start n i : Nat) (h : i < n) :
    magWord (drawMag start n) i = Config.freeWord (start + i) := by
  induction n with
  | zero => omega
  | succ n ih =>
    have e : drawMag start (n + 1) = 2 ^ (32 * n) * (Config.freeWord (start + n)).toNat + drawMag start n := by
      rw [drawMag, Nat.mul_comm, Nat.add_comm]
    apply BitVec.eq_of_getLsbD_eq
    intro j hj
    rw [magWord_getLsbD _ _ _ hj, e, Nat.testBit_two_pow_mul_add _ (drawMag_lt start n)]
    rcases Nat.lt_succ_iff_lt_or_eq.1 h with h | rfl
    · rw [if_pos (by omega), ← magWord_getLsbD _ _ _ hj, ih h]
    · have e' : 32 * i + j - 32 * i = j := by omega
      rw [if_neg (by omega), BitVec.testBit_toNat, e']

theorem read_drawRegs (nwords start : Nat) (k : RegIdx) :
    (drawRegs nwords start).read k = ⟨drawMag (start + k.val * nwords) nwords, false⟩ := by
  simp [RegFile.read, drawRegs, Vector.get_eq_getElem]

/-- Two register files that read the same are the same. -/
theorem regFile_ext {r r' : RegFile} (h : ∀ k, r.read k = r'.read k) : r = r' := by
  apply Vector.ext
  intro i hi
  simpa [RegFile.read, Vector.get_eq_getElem] using h ⟨i, hi⟩

@[simp] theorem length_rangeRegs (start : RegIdx) (len : Len) : (rangeRegs start len).length = len.val := by
  simp [rangeRegs]

@[simp] theorem length_rangeNums (r : RegFile) (start : RegIdx) (len : Len) :
    (r.rangeNums start len).length = len.val := by
  simp [RegFile.rangeNums]

theorem rangeNums_lt {nbits : Nat} {r : RegFile} (h : ∀ k, (r.read k).mag < 2 ^ nbits) (start : RegIdx)
    (len : Len) : ∀ f ∈ r.rangeNums start len, f < 2 ^ nbits := by
  intro f hf
  obtain ⟨k, -, rfl⟩ := List.mem_map.1 hf
  exact h k

theorem overflows_eq_true {nbits v : Nat} : overflows nbits v = true ↔ 2 ^ nbits ≤ v := by
  simp [overflows, Nat.shiftRight_eq_div_pow]

theorem overflows_eq_false {nbits v : Nat} : overflows nbits v = false ↔ v < 2 ^ nbits := by
  simp [overflows, Nat.shiftRight_eq_div_pow, Nat.div_eq_zero_iff]

/-- The sum of the sign bits, bit by bit (10_state.md R33). -/
theorem signBits_lt (r : RegFile) (n : Nat) : signBits r n < 2 ^ n := by
  induction n with
  | zero => simp [signBits]
  | succ n ih =>
    rw [signBits, Nat.pow_succ, Nat.add_comm]
    exact digit_lt (Bool.toNat_lt _) ih

theorem signBits_testBit (r : RegFile) (n j : Nat) :
    (signBits r n).testBit j = (decide (j < n) && (r.get (Fin.ofNat NREGS j)).sign) := by
  induction n with
  | zero => simp [signBits]
  | succ n ih =>
    have e : signBits r (n + 1) = 2 ^ n * (r.get (Fin.ofNat NREGS n)).sign.toNat + signBits r n := by
      rw [signBits, Nat.mul_comm, Nat.add_comm]
    rw [e, Nat.testBit_two_pow_mul_add _ (signBits_lt r n)]
    by_cases h : j < n
    · have : j < n + 1 := by omega
      simp [h, this, ih]
    · by_cases h' : j = n
      · subst h'; cases (r.get (Fin.ofNat NREGS j)).sign <;> simp
      · have hj : ¬ j < n + 1 := by omega
        simp only [h, hj, if_false, decide_false, Bool.false_and]
        have hp : (2 : Nat) ^ 1 ≤ 2 ^ (j - n) := Nat.pow_le_pow_right (by omega) (by omega)
        exact Nat.testBit_lt_two_pow (lt_of_lt_of_le (Bool.toNat_lt _) hp)

end Sys2Proof.Laws
end

