-- ==== Sys2Proof/Laws/Bus.lean ====
section
/-! SUPPORT. The register map and everything a host access can do, said once (20_memory.md R46 – R57). -/

namespace Sys2Proof.Laws

open Sys2Proof Sys2Proof.Machine

/-- A CSR stands at its offset and nowhere else (20_memory.md R46). -/
theorem targetOf_csr (nwords : Nat) (c : Csr) : targetOf nwords c.offset = some (.csr c) := by
  cases c <;> rfl

/-- Past the CSRs the map is the windows alone (20_memory.md R46). -/
theorem targetOf_aboveCsrs {nwords off : Nat} (h4 : off % 4 = 0) (hlo : 0x1000 ≤ off) (hhi : off < 0x5000) :
    targetOf nwords off
      = if (off - 0x1000) % 0x400 / 4 < nwords
        then some (.window (Fin.ofNat NREGS ((off - 0x1000) / 0x400)) ((off - 0x1000) % 0x400 / 4))
        else none := by
  have hcsr : ∀ n : Nat, n < 0x1000 → off ≠ n := fun n hn e => Nat.not_lt.2 hlo (e ▸ hn)
  simp only [targetOf, h4, hcsr _ (show 0x0000 < 0x1000 by decide), hcsr _ (show 0x0004 < 0x1000 by decide),
    hcsr _ (show 0x0008 < 0x1000 by decide), hcsr _ (show 0x000C < 0x1000 by decide),
    hcsr _ (show 0x0010 < 0x1000 by decide), hcsr _ (show 0x0014 < 0x1000 by decide),
    hcsr _ (show 0x0018 < 0x1000 by decide), hlo, hhi, ne_eq, not_true, and_self, if_true, if_false]

/-- A window word stands at its offset (20_memory.md R49). -/
theorem targetOf_window {nwords : Nat} (k : RegIdx) {i : Nat} (hi : i < nwords) (h256 : i < 256) :
    targetOf nwords (windowOffset k i) = some (.window k i) := by
  have hk : k.val < 16 := k.isLt
  have word : windowOffset k i = 0x1000 + (0x400 * k.val + 4 * i) := Nat.add_assoc ..
  have e1 : (windowOffset k i - 0x1000) / 0x400 = k.val := by omega
  have e2 : (windowOffset k i - 0x1000) % 0x400 / 4 = i := by omega
  rw [targetOf_aboveCsrs (by omega) (by omega) (by omega), e1, e2, if_pos hi]
  congr 2
  exact Fin.ext (Nat.mod_eq_of_lt hk)

/-- What an offset that answers addresses. -/
theorem targetOf_some {nwords off : Nat} {t : Target} (h : targetOf nwords off = some t) :
    (∃ c : Csr, t = .csr c ∧ off = c.offset)
    ∨ ∃ (k : RegIdx) (i : Nat), t = .window k i ∧ i < nwords ∧ i < 256 ∧ off = windowOffset k i := by
  unfold targetOf at h
  by_cases h4 : off % 4 ≠ 0
  · rw [if_pos h4] at h; cases h
  rw [if_neg h4] at h
  have csr : ∀ (c : Csr), off = c.offset → some (Target.csr c) = some t →
      (∃ c : Csr, t = .csr c ∧ off = c.offset)
      ∨ ∃ (k : RegIdx) (i : Nat), t = .window k i ∧ i < nwords ∧ i < 256 ∧ off = windowOffset k i :=
    fun c hc ht => .inl ⟨c, (Option.some.inj ht).symm, hc⟩
  by_cases h0 : off = 0x0000
  · rw [if_pos h0] at h; exact csr .id h0 h
  rw [if_neg h0] at h
  by_cases h1 : off = 0x0004
  · rw [if_pos h1] at h; exact csr .cfg h1 h
  rw [if_neg h1] at h
  by_cases h2 : off = 0x0008
  · rw [if_pos h2] at h; exact csr .ctrl h2 h
  rw [if_neg h2] at h
  by_cases h3 : off = 0x000C
  · rw [if_pos h3] at h; exact csr .cmd h3 h
  rw [if_neg h3] at h
  by_cases h5 : off = 0x0010
  · rw [if_pos h5] at h; exact csr .status h5 h
  rw [if_neg h5] at h
  by_cases h6 : off = 0x0014
  · rw [if_pos h6] at h; exact csr .errcode h6 h
  rw [if_neg h6] at h
  by_cases h7 : off = 0x0018
  · rw [if_pos h7] at h; exact csr .sign h7 h
  rw [if_neg h7] at h
  by_cases hb : 0x1000 ≤ off ∧ off < 0x5000
  · rw [if_pos hb] at h
    by_cases hi : (off - 0x1000) % 0x400 / 4 < nwords
    · simp only [hi, if_true, Option.some.injEq] at h
      refine .inr ⟨_, _, h.symm, hi, by omega, ?_⟩
      have hk : (off - 0x1000) / 0x400 < 16 := by omega
      simp only [windowOffset, Fin.val_ofNat, NREGS, Nat.mod_eq_of_lt hk]
      omega
    · simp only [hi, if_false] at h; cases h
  · rw [if_neg hb] at h; cases h

theorem blockOffset_add (c : Config) {off : Nat} (h : off < 0x8000) :
    blockOffset c (c.base + off) = some off := by
  unfold blockOffset
  rw [if_pos (by simp only [blockSize]; omega)]
  congr 1; omega

theorem blockOffset_some {c : Config} {addr off : Nat} (h : blockOffset c addr = some off) :
    addr = c.base + off ∧ off < 0x8000 := by
  unfold blockOffset at h
  split at h
  · next hb =>
    simp only [Option.some.injEq, blockSize] at h hb; omega
  · cases h

/-- An access to a target answers OK: a read with its word, a write with its effect. -/
theorem busAccess_read {s : State} {off : Nat} {t : Target} (h : targetOf s.config.nwords off = some t) :
    s.busAccess .w32 off .read = ((s.readTarget t).1, .okRead (s.readTarget t).2) := by
  simp [State.busAccess, h]

theorem busAccess_write {s : State} {off : Nat} {t : Target} (w : Word)
    (h : targetOf s.config.nwords off = some t) :
    s.busAccess .w32 off (.write w) = (s.writeTarget w t, .okWrite) := by
  simp [State.busAccess, h]

/-- An access of another width, or with no target, gets BUSERR and changes nothing
(60_exceptions.md R147). -/
theorem busAccess_busErr {s : State} {width : Width} {off : Nat} {op : BusOp}
    (h : width ≠ .w32 ∨ targetOf s.config.nwords off = none) : s.busAccess width off op = (s, .busErr) := by
  unfold State.busAccess
  split
  · next h' => rcases h with h | h
               · exact absurd rfl h
               · rw [h] at h'; cases h'
  · next h' => rcases h with h | h
               · exact absurd rfl h
               · rw [h] at h'; cases h'
  · rfl

/-- Everything a host access to the block can do. -/
theorem busAccess_cases (s : State) (width : Width) (off : Nat) (op : BusOp) :
    s.busAccess width off op = (s, .busErr)
    ∨ (width = .w32 ∧ op = .read ∧ ∃ t, targetOf s.config.nwords off = some t
        ∧ s.busAccess width off op = ((s.readTarget t).1, .okRead (s.readTarget t).2))
    ∨ (width = .w32 ∧ ∃ w t, op = .write w ∧ targetOf s.config.nwords off = some t
        ∧ s.busAccess width off op = (s.writeTarget w t, .okWrite)) := by
  by_cases hw : width = .w32
  · subst hw
    cases ht : targetOf s.config.nwords off with
    | none => exact .inl (busAccess_busErr (.inr ht))
    | some t =>
      cases op with
      | read => exact .inr (.inl ⟨rfl, rfl, t, rfl, busAccess_read ht⟩)
      | write w => exact .inr (.inr ⟨rfl, w, t, rfl, rfl, busAccess_write w ht⟩)
  · exact .inl (busAccess_busErr (.inl hw))

/-- A read changes nothing in the NTE; an UNSPECIFIED one advances the model's own draw counter
(20_memory.md R54, R57). -/
theorem readTarget_state (s : State) (t : Target) :
    (s.readTarget t).1 = s ∨ (s.readTarget t).1 = { s with draws := s.draws + 1 } := by
  unfold State.readTarget
  split
  · split
    · exact .inr rfl
    · exact .inl rfl
  · exact .inl rfl
  · split
    · exact .inr rfl
    · exact .inl rfl

theorem writeCmd_idle {s : State} (w : Word) (h : s.engine = .idle) : s.writeCmd w = s.accept w := by
  simp [State.writeCmd, busy_of_idle h]

theorem writeCmd_busy {s : State} {snap : Snapshot} (w : Word) (h : s.engine = .busy snap) :
    s.writeCmd w = { s with cmdOvr := true } := by
  simp [State.writeCmd, busy_of_busy h]

theorem writeWindow_idle {s : State} (k : RegIdx) (i : Nat) (w : Word) (h : s.engine = .idle) :
    s.writeWindow k i w = { s with regs := s.regs.write k ⟨setMagWord (s.regs.read k).mag i w, false⟩ } := by
  simp [State.writeWindow, busy_of_idle h]

theorem writeWindow_busy {s : State} {snap : Snapshot} (k : RegIdx) (i : Nat) (w : Word)
    (h : s.engine = .busy snap) : s.writeWindow k i w = { s with winOvr := true } := by
  simp [State.writeWindow, busy_of_busy h]

theorem writeCtrl_reset {s : State} {w : Word} (h : w.getLsbD 1 = true) : s.writeCtrl w = s.resetAll := by
  unfold State.writeCtrl; rw [h]; rfl

theorem writeCtrl_ie {s : State} {w : Word} (h : w.getLsbD 1 = false) :
    s.writeCtrl w = { s with ie := w.getLsbD 0 } := by
  unfold State.writeCtrl; rw [h]; rfl

/-- A host turn inside the block. -/
theorem hostStep_inBlock (s : State) (width : Width) {off : Nat} (op : BusOp) (onErr : OnBusErr)
    (h : off < 0x8000) :
    hostStep ⟨width, s.config.base + off, op⟩ onErr s
      = if (s.busAccess width off op).2 = .busErr ∧ onErr = .traps
        then .fault (.hostBusError ⟨width, s.config.base + off, op⟩)
        else .next { (s.busAccess width off op).1 with response := some (s.busAccess width off op).2 } := by
  unfold hostStep
  rw [blockOffset_add _ h]

/-- Everything a host turn that goes on can do. -/
theorem hostStep_next {a : Access} {onErr : OnBusErr} {s t : State} (h : hostStep a onErr s = .next t) :
    ∃ off, off < 0x8000 ∧ a.addr = s.config.base + off
      ∧ t = { (s.busAccess a.width off a.op).1 with response := some (s.busAccess a.width off a.op).2 } := by
  unfold hostStep at h
  split at h
  · cases h
  · next off ho =>
    obtain ⟨ha, hlt⟩ := blockOffset_some ho
    simp only at h
    split at h
    · cases h
    · cases h; exact ⟨off, hlt, ha, rfl⟩

/-- What a host access can do to the state: nothing, one more draw, or a write's effect. -/
theorem busAccess_effect (s : State) (width : Width) (off : Nat) (op : BusOp) :
    (s.busAccess width off op).1 = s
    ∨ (s.busAccess width off op).1 = { s with draws := s.draws + 1 }
    ∨ (width = .w32 ∧ ∃ w t, op = .write w ∧ targetOf s.config.nwords off = some t
        ∧ (s.busAccess width off op).1 = s.writeTarget w t) := by
  rcases busAccess_cases s width off op with h | ⟨-, -, t, -, h⟩ | ⟨hw, w, t, ho, ht, h⟩ <;> rw [h]
  · exact .inl rfl
  · rcases readTarget_state s t with h | h
    · exact .inl h
    · exact .inr (.inl h)
  · exact .inr (.inr ⟨hw, w, t, ho, ht, rfl⟩)

/-- No write changes the configuration. -/
theorem writeTarget_config (s : State) (w : Word) (t : Target) : (s.writeTarget w t).config = s.config := by
  cases t with
  | csr c =>
    cases c with
    | ctrl => simp only [State.writeTarget, State.writeCtrl]; split <;> simp only [resetAll_config]
    | cmd => simp only [State.writeTarget, State.writeCmd]; split <;> simp only [accept_config]
    | status => simp only [State.writeTarget, writeStatus_config]
    | _ => simp only [State.writeTarget]
  | window k i => simp only [State.writeTarget, State.writeWindow]; split <;> trivial

/-- No write changes the agenda. -/
theorem writeTarget_agenda (s : State) (w : Word) (t : Target) : (s.writeTarget w t).agenda = s.agenda := by
  cases t with
  | csr c =>
    cases c with
    | ctrl => simp only [State.writeTarget, State.writeCtrl]; split <;> simp only [resetAll_agenda]
    | cmd => simp only [State.writeTarget, State.writeCmd]; split <;> simp only [accept_agenda]
    | status => simp only [State.writeTarget, writeStatus_agenda]
    | _ => simp only [State.writeTarget]
  | window k i => simp only [State.writeTarget, State.writeWindow]; split <;> trivial

/-- A write while BUSY reaches neither the snapshot, nor a register, nor CMD, unless it resets
(20_memory.md R52, R53, R61). -/
theorem writeTarget_busy {s : State} {snap : Snapshot} (w : Word) (t : Target) (hb : s.engine = .busy snap) :
    ((s.writeTarget w t).engine = .busy snap ∧ (s.writeTarget w t).regs = s.regs
      ∧ (s.writeTarget w t).cmd = s.cmd)
    ∨ (t = .csr .ctrl ∧ w.getLsbD 1 = true ∧ s.writeTarget w t = s.resetAll) := by
  cases t with
  | csr c =>
    cases c with
    | ctrl =>
      simp only [State.writeTarget]
      cases hs : w.getLsbD 1
      · rw [writeCtrl_ie hs]; exact .inl ⟨hb, rfl, rfl⟩
      · exact .inr ⟨by trivial, by trivial, writeCtrl_reset hs⟩
    | cmd => simp only [State.writeTarget]; rw [writeCmd_busy w hb]; exact .inl ⟨hb, rfl, rfl⟩
    | _ => exact .inl ⟨hb, rfl, rfl⟩
  | window k i =>
    simp only [State.writeTarget]; rw [writeWindow_busy k i w hb]; exact .inl ⟨hb, rfl, rfl⟩

/-- A reset puts the state at the values of 10_state.md R37. -/
theorem isReset_resetAll (s : State) : (s.resetAll).IsReset where
  mag_fits := fun k => by
    rw [resetAll_regs, read_drawRegs]; exact drawMag_lt _ _
  sign_clear := fun k => by rw [resetAll_regs, read_drawRegs]
  engine_idle := rfl
  id_word := by simp only [State.csrWord, idWord]
  cfg_word := by
    simp only [State.csrWord, cfgWord, resetAll_config, NREGS]
    congr 1; omega
  ctrl_word := rfl
  cmd_word := rfl
  status_word := rfl
  errcode_word := rfl
  sign_word := by
    show BitVec.ofNat 32 (signBits (s.resetAll).regs NREGS) = 0
    have : signBits (s.resetAll).regs NREGS = 0 := by
      apply Nat.eq_of_testBit_eq
      intro j
      rw [signBits_testBit, Nat.zero_testBit]
      have := read_drawRegs s.config.nwords s.draws (Fin.ofNat NREGS j)
      unfold RegFile.read at this
      rw [resetAll_regs, this, Bool.and_false]
    rw [this]; rfl
  irq_low := rfl

/-- A reset is a reset whatever the model's own fields hold. -/
theorem IsReset.of_eq {s t : State} (h : s.IsReset) (hc : t.config = s.config) (hr : t.regs = s.regs)
    (he : t.engine = s.engine) (hie : t.ie = s.ie) (hcmd : t.cmd = s.cmd) (hd : t.done = s.done)
    (herr : t.err = s.err) (ho : t.cmdOvr = s.cmdOvr) (hw : t.winOvr = s.winOvr) (hcode : t.code = s.code) :
    t.IsReset := by
  obtain ⟨c, r, e, i, m, d, er, co, wo, cd, ag, re, dr⟩ := t
  simp only at hc hr he hie hcmd hd herr ho hw hcode
  subst hc hr he hie hcmd hd herr ho hw hcode
  exact ⟨h.mag_fits, h.sign_clear, h.engine_idle, h.id_word, h.cfg_word, h.ctrl_word, h.cmd_word,
    h.status_word, h.errcode_word, h.sign_word, h.irq_low⟩

end Sys2Proof.Laws
end

