-- ==== Sys2Proof/Laws/Decode.lean ====
section
/-! SUPPORT. The fields of a packed word (30_encoding.md R71, R72). -/

namespace Sys2Proof.Laws

open Sys2Proof

/-- A packed word is the sum of its fields at their places (30_encoding.md R71). -/
theorem pack_toNat {op m f : Nat} (rd ra rb rn : RegIdx) (len : Len) (hop : op < 64) (hm : m < 4) (hf : f < 2) :
    (pack op m rd ra rb rn len f).toNat
      = op + m * 2 ^ 6 + rd.val * 2 ^ 8 + ra.val * 2 ^ 12 + rb.val * 2 ^ 16 + rn.val * 2 ^ 20
        + len.val * 2 ^ 24 + f * 2 ^ 29 := by
  have h1 := rd.isLt; have h2 := ra.isLt; have h3 := rb.isLt; have h4 := rn.isLt; have h5 := len.isLt
  simp only [NREGS] at h1 h2 h3 h4
  rw [pack, BitVec.toNat_ofNat, Nat.mod_eq_of_lt]
  omega

/-- Reading the fields of a packed word gives them back; the reserved bits are 0. -/
theorem fieldsOf_pack {op m f : Nat} (rd ra rb rn : RegIdx) (len : Len) (hop : op < 64) (hm : m < 4)
    (hf : f < 2) :
    fieldsOf (pack op m rd ra rb rn len f) = ⟨op, m, rd.val, ra.val, rb.val, rn.val, len.val, f, 0⟩ := by
  have h1 := rd.isLt; have h2 := ra.isLt; have h3 := rb.isLt; have h4 := rn.isLt; have h5 := len.isLt
  simp only [NREGS] at h1 h2 h3 h4
  simp only [fieldsOf, pack_toNat rd ra rb rn len hop hm hf, bits, Fields.mk.injEq]
  norm_num
  omega

/-- A word is the sum of its fields at their places. -/
theorem toNat_eq_fields (w : Word) :
    w.toNat = (fieldsOf w).op + (fieldsOf w).m * 2 ^ 6 + (fieldsOf w).rd * 2 ^ 8 + (fieldsOf w).ra * 2 ^ 12
      + (fieldsOf w).rb * 2 ^ 16 + (fieldsOf w).rn * 2 ^ 20 + (fieldsOf w).len * 2 ^ 24
      + (fieldsOf w).f * 2 ^ 29 + (fieldsOf w).top * 2 ^ 30 := by
  have := w.isLt
  simp only [fieldsOf, bits]
  norm_num
  omega

theorem method_code_lt (m : Method) : m.code < 4 := by cases m <;> decide

@[simp] theorem methodOf_code (m : Method) : methodOf m.code = m := by cases m <;> rfl

@[simp] theorem regOf_val (k : RegIdx) : regOf k.val = k := Fin.ext (Nat.mod_eq_of_lt k.isLt)

@[simp] theorem lenOf_val (l : Len) : lenOf l.val = l := Fin.ext (Nat.mod_eq_of_lt l.isLt)

/-- The bytes of a word make the word again (20_memory.md R55). -/
theorem wordOfBytes_wordByte (w : Word) :
    wordOfBytes (wordByte w 0) (wordByte w 1) (wordByte w 2) (wordByte w 3) = w := by
  have := w.isLt
  apply BitVec.eq_of_toNat_eq
  simp only [wordOfBytes, wordByte, bits, BitVec.toNat_ofNat]
  norm_num
  omega

/-- A field has the value n exactly when its bits do (00_scope.md R14). -/
theorem bits_eq_iff {v hi lo n : Nat} (hn : n < 2 ^ (hi + 1 - lo)) :
    bits v hi lo = n ↔ ∀ j < hi + 1 - lo, v.testBit (lo + j) = n.testBit j := by
  have key : ∀ j, (bits v hi lo).testBit j = (decide (j < hi + 1 - lo) && v.testBit (lo + j)) := by
    intro j; rw [bits, Nat.testBit_mod_two_pow, Nat.testBit_div_two_pow, Nat.add_comm j lo]
  constructor
  · rintro rfl j hj; rw [key]; simp [hj]
  · intro h
    apply Nat.eq_of_testBit_eq
    intro j
    rw [key]
    by_cases hj : j < hi + 1 - lo
    · simp [hj, h j hj]
    · simp only [hj, decide_false, Bool.false_and]
      exact (Nat.testBit_lt_two_pow (lt_of_lt_of_le hn (Nat.pow_le_pow_right (by omega) (by omega)))).symm

/-- The fields (hi, lo, value) cover a row's mask, and agree with its pattern. -/
def coversMask (fields : List (Nat × Nat × Nat)) (mask pattern : Word) : Bool :=
  (fields.all fun (hi, lo, n) => decide (hi < 32 ∧ lo ≤ hi ∧ n < 2 ^ (hi + 1 - lo)) &&
    (List.range (hi + 1 - lo)).all fun j =>
      mask.getLsbD (lo + j) && (pattern.getLsbD (lo + j) == n.testBit j)) &&
  (List.range 32).all fun i =>
    (!mask.getLsbD i && !pattern.getLsbD i) || fields.any fun (hi, lo, _) => decide (lo ≤ i ∧ i ≤ hi)

/-- A masked compare is a compare of the fields the mask covers (opcode_table.json). -/
theorem and_mask_eq_iff {fields : List (Nat × Nat × Nat)} {mask pattern : Word}
    (h : coversMask fields mask pattern = true) (w : Word) :
    w &&& mask = pattern ↔ ∀ x ∈ fields, bits w.toNat x.1 x.2.1 = x.2.2 := by
  simp only [coversMask, Bool.and_eq_true, List.all_eq_true, decide_eq_true_eq, List.mem_range,
    beq_iff_eq, Bool.or_eq_true, Bool.not_eq_true', List.any_eq_true] at h
  obtain ⟨hf, hc⟩ := h
  constructor
  · rintro e ⟨hi, lo, n⟩ hx
    obtain ⟨⟨-, -, hn⟩, hbits⟩ := hf _ hx
    refine (bits_eq_iff hn).2 fun j hj => ?_
    obtain ⟨hm, hp⟩ := hbits j hj
    rw [BitVec.testBit_toNat, ← hp, ← e, BitVec.getLsbD_and, hm, Bool.and_true]
  · intro e
    apply BitVec.eq_of_getLsbD_eq
    intro i hi
    rw [BitVec.getLsbD_and]
    rcases hc i hi with ⟨hm, hp⟩ | ⟨⟨hi', lo, n⟩, hx, hlo, hle⟩
    · rw [hm, hp, Bool.and_false]
    · obtain ⟨⟨-, -, hn⟩, hbits⟩ := hf _ hx
      have hj : i - lo < hi' + 1 - lo := by simp only at hlo hle; omega
      obtain ⟨hm, hp⟩ := hbits (i - lo) hj
      have hw := (bits_eq_iff hn).1 (e _ hx) (i - lo) hj
      have hle' : lo ≤ i := hlo
      simp only at hm hp hw
      rw [Nat.add_sub_cancel' hle'] at hm hp hw
      rw [BitVec.testBit_toNat] at hw
      rw [hm, hp, hw, Bool.and_true]

end Sys2Proof.Laws
end

