-- ==== Sys2Proof/Laws/Kernel.lean ====
section
/-! SUPPORT. The egcd recurrence, Bézout's identity and the inverse (40_kernel.md R100, R102). -/

namespace Sys2Proof.Laws

open Sys2Proof Sys2Proof.Machine

/-- Enough fuel is enough: more changes nothing. -/
theorem egcdFuel_eq (a : Nat) : ∀ b fuel, a ≤ fuel → egcdFuel fuel a b = egcdFuel a a b := by
  induction a using Nat.strong_induction_on with
  | _ a ih =>
    intro b fuel h
    match fuel, a with
    | 0, 0 => rfl
    | fuel + 1, 0 => simp [egcdFuel]
    | fuel + 1, a + 1 =>
      have hlt : b % (a + 1) < a + 1 := Nat.mod_lt _ (by omega)
      simp only [egcdFuel, Nat.succ_ne_zero, if_false]
      rw [ih (b % (a + 1)) hlt (a + 1) fuel (by omega), ih (b % (a + 1)) hlt (a + 1) a (by omega)]

@[simp] theorem egcd_zero (b : Nat) : egcd 0 b = (b, 0, 1) := rfl

/-- The recursive case of the recurrence (40_kernel.md R100). -/
theorem egcd_rec {a : Nat} (b : Nat) (h : a ≠ 0) :
    egcd a b = ((egcd (b % a) a).1,
      (egcd (b % a) a).2.2 - ((b / a : Nat) : Int) * (egcd (b % a) a).2.1, (egcd (b % a) a).2.1) := by
  obtain ⟨a, rfl⟩ := Nat.exists_eq_succ_of_ne_zero h
  have hlt : b % (a + 1) < a + 1 := Nat.mod_lt _ (by omega)
  unfold egcd
  simp only [egcdFuel, Nat.succ_eq_add_one, Nat.succ_ne_zero, if_false]
  rw [egcdFuel_eq (b % (a + 1)) (a + 1) a (by omega)]

/-- Induction along the recurrence. -/
theorem egcd_induction {P : Nat → Nat → Prop} (zero : ∀ b, P 0 b)
    (step : ∀ a b, a ≠ 0 → P (b % a) a → P a b) (a b : Nat) : P a b := by
  induction a using Nat.strong_induction_on generalizing b with
  | _ a ih =>
    by_cases h : a = 0
    · subst h; exact zero b
    · exact step a b h (ih _ (Nat.mod_lt _ (Nat.pos_of_ne_zero h)) a)

/-- The first component is the greatest common divisor (00_scope.md R13). -/
theorem egcd_gcd (a b : Nat) : (egcd a b).1 = Nat.gcd a b := by
  induction a, b using egcd_induction with
  | zero b => simp
  | step a b h ih => rw [egcd_rec b h, Nat.gcd_rec a b]; exact ih

/-- Bézout's identity (40_kernel.md R100). -/
theorem egcd_bezout (a b : Nat) :
    (a : Int) * (egcd a b).2.1 + (b : Int) * (egcd a b).2.2 = (Nat.gcd a b : Int) := by
  induction a, b using egcd_induction with
  | zero b => simp
  | step a b h ih =>
    rw [egcd_rec b h, Nat.gcd_rec a b, ← ih]
    have hdiv : (a : Int) * ((b / a : Nat) : Int) + ((b % a : Nat) : Int) = (b : Int) := by
      exact_mod_cast Nat.div_add_mod b a
    simp only
    linear_combination (-(egcd (b % a) a).2.1) * hdiv

theorem emod_lt (x : Int) {m : Nat} (h : m ≠ 0) : emod x m < m := by
  have hm : (0 : Int) < m := by omega
  have := Int.emod_lt_of_pos x hm
  have := Int.emod_nonneg x (by omega : (m : Int) ≠ 0)
  unfold emod; omega

/-- emod is a residue: m divides x − emod(x, m) (00_scope.md R12). -/
theorem dvd_sub_emod (x : Int) {m : Nat} (h : m ≠ 0) : (m : Int) ∣ x - emod x m := by
  have := Int.emod_nonneg x (by omega : (m : Int) ≠ 0)
  have e : ((emod x m : Nat) : Int) = x % m := by unfold emod; omega
  rw [e]; exact Int.dvd_self_sub_emod

/-- For gcd(a, m) = 1 the residue of the first coefficient is the inverse of a modulo m. -/
theorem isInverse_emod {a m : Nat} (hm : m ≠ 0) (hg : Nat.gcd a m = 1) :
    IsInverse a m (emod (egcd a m).2.1 m) := by
  refine ⟨emod_lt _ hm, dvd_sub_emod _ hm, ?_⟩
  have hb := egcd_bezout a m
  rw [hg] at hb
  obtain ⟨c, hc⟩ := dvd_sub_emod (egcd a m).2.1 hm
  have key : (m : Int) ∣ ((a * emod (egcd a m).2.1 m : Nat) : Int) - ((1 : Nat) : Int) := by
    refine ⟨-(egcd a m).2.2 - a * c, ?_⟩
    push_cast at hb ⊢
    linear_combination hb - (a : Int) * hc
  exact ((Nat.modEq_iff_dvd.2 key).symm)

/-- An inversion that is answered (40_kernel.md R102). -/
theorem inverseMod_coprime {a m : Nat} (h : Nat.gcd a m = 1) :
    inverseMod a m = .ok (emod (egcd a m).2.1 m) := by
  have : ¬ (egcd a m).1 ≠ 1 := by rw [egcd_gcd]; simpa using h
  exact if_neg this

/-- NotCoprime is raised exactly when the gcd is not 1 (40_kernel.md R102). -/
theorem inverseMod_notCoprime {a m : Nat} (h : Nat.gcd a m ≠ 1) : inverseMod a m = .error .notCoprime := by
  have : (egcd a m).1 ≠ 1 := by rw [egcd_gcd]; exact h
  exact if_pos this

theorem lcmChecked_zero : lcmChecked 0 0 = .error .lcmUndefined := rfl

/-- One lcm that is defined (40_kernel.md R103). -/
theorem lcmChecked_eq {x y : Nat} (h : ¬(x = 0 ∧ y = 0)) : lcmChecked x y = .ok (Nat.lcm x y) := by
  have : Nat.gcd x y ≠ 0 := fun e => h (Nat.gcd_eq_zero_iff.1 e)
  simp [lcmChecked, this, Nat.lcm]

end Sys2Proof.Laws
end

