-- ==== Sys2Proof/Laws/Derivation.lean ====
section
/-! SUPPORT. The folds, validation and the totients (41_fold_derivation.md R110 – R112). -/

namespace Sys2Proof.Laws

open Sys2Proof Sys2Proof.Machine

@[simp] theorem foldChecked_nil (nbits : Nat) (op : Nat → Nat → Except ErrCode Nat) (x : Nat) :
    foldChecked nbits op x [] = .ok x := rfl

theorem foldChecked_cons_ok {nbits : Nat} {op : Nat → Nat → Except ErrCode Nat} {x y z : Nat}
    (rest : List Nat) (h : op x y = .ok z) (hz : z < 2 ^ nbits) :
    foldChecked nbits op x (y :: rest) = foldChecked nbits op z rest := by
  simp [foldChecked, h, overflows_eq_false.2 hz]

theorem foldChecked_cons_overflow {nbits : Nat} {op : Nat → Nat → Except ErrCode Nat} {x y z : Nat}
    (rest : List Nat) (h : op x y = .ok z) (hz : 2 ^ nbits ≤ z) :
    foldChecked nbits op x (y :: rest) = .error .overflow := by
  simp [foldChecked, h, overflows_eq_true.2 hz]

theorem foldChecked_cons_error {nbits : Nat} {op : Nat → Nat → Except ErrCode Nat} {x y : Nat} {e : ErrCode}
    (rest : List Nat) (h : op x y = .error e) : foldChecked nbits op x (y :: rest) = .error e := by
  simp [foldChecked, h]

/-- A fold over two lists is the fold over the second from where the first ends. -/
theorem foldChecked_append (nbits : Nat) (op : Nat → Nat → Except ErrCode Nat) (xs ys : List Nat) (x : Nat) :
    foldChecked nbits op x (xs ++ ys)
      = match foldChecked nbits op x xs with
        | .error e => .error e
        | .ok z => foldChecked nbits op z ys := by
  induction xs generalizing x with
  | nil => rfl
  | cons y xs ih =>
    simp only [List.cons_append, foldChecked]
    cases op x y with
    | error e => rfl
    | ok z =>
      simp only
      split
      · rfl
      · exact ih z

/-- Every value a fold answers fits, if the value it starts from does. -/
theorem foldChecked_lt {nbits : Nat} {op : Nat → Nat → Except ErrCode Nat} {xs : List Nat} {x r : Nat}
    (hx : x < 2 ^ nbits) (h : foldChecked nbits op x xs = .ok r) : r < 2 ^ nbits := by
  induction xs generalizing x with
  | nil => simp only [foldChecked, Except.ok.injEq] at h; omega
  | cons y xs ih =>
    simp only [foldChecked] at h
    split at h
    · cases h
    · next z hz =>
      split at h
      · cases h
      · next ho => exact ih (overflows_eq_false.1 (by simpa using ho)) h

theorem fold1Checked_lt {nbits : Nat} {op : Nat → Nat → Except ErrCode Nat} {xs : List Nat} {r : Nat}
    (hx : ∀ f ∈ xs, f < 2 ^ nbits) (h : fold1Checked nbits op xs = .ok r) : r < 2 ^ nbits := by
  cases xs with
  | nil => cases h
  | cons x xs => exact foldChecked_lt (hx x (by simp)) h

/-- The product fold of positive factors overflows exactly when the whole product does. -/
theorem foldChecked_mul {nbits : Nat} {xs : List Nat} {x : Nat} (hpos : ∀ f ∈ xs, 1 ≤ f)
    (hx : x < 2 ^ nbits) :
    foldChecked nbits mulChecked x xs
      = if 2 ^ nbits ≤ x * xs.prod then .error .overflow else .ok (x * xs.prod) := by
  induction xs generalizing x with
  | nil => simp [Nat.not_le.2 hx]
  | cons y xs ih =>
    have hp : 1 ≤ xs.prod := List.one_le_prod_of_one_le fun f hf => hpos f (by simp [hf])
    by_cases hy : 2 ^ nbits ≤ x * y
    · rw [foldChecked_cons_overflow xs rfl hy, if_pos]
      rw [List.prod_cons, ← Nat.mul_assoc]
      exact hy.trans (Nat.le_mul_of_pos_right _ hp)
    · rw [foldChecked_cons_ok xs rfl (Nat.not_le.1 hy), ih (fun f hf => hpos f (by simp [hf])) (Nat.not_le.1 hy),
        List.prod_cons, Nat.mul_assoc]

theorem foldl_lcm_pos {xs : List Nat} {x : Nat} (hx : 1 ≤ x) (hpos : ∀ f ∈ xs, 1 ≤ f) :
    1 ≤ xs.foldl Nat.lcm x := by
  induction xs generalizing x with
  | nil => exact hx
  | cons y xs ih =>
    exact ih (Nat.lcm_pos hx (hpos y (by simp))) fun f hf => hpos f (by simp [hf])

theorem le_foldl_lcm {xs : List Nat} {x : Nat} (hx : 1 ≤ x) (hpos : ∀ f ∈ xs, 1 ≤ f) :
    x ≤ xs.foldl Nat.lcm x := by
  induction xs generalizing x with
  | nil => exact le_refl x
  | cons y xs ih =>
    have hl : 1 ≤ Nat.lcm x y := Nat.lcm_pos hx (hpos y (by simp))
    exact (Nat.le_of_dvd hl (Nat.dvd_lcm_left x y)).trans (ih hl fun f hf => hpos f (by simp [hf]))

/-- The lcm fold of positive numbers overflows exactly when the whole lcm does. -/
theorem foldChecked_lcm {nbits : Nat} {xs : List Nat} {x : Nat} (hx1 : 1 ≤ x) (hpos : ∀ f ∈ xs, 1 ≤ f)
    (hx : x < 2 ^ nbits) :
    foldChecked nbits lcmChecked x xs
      = if 2 ^ nbits ≤ xs.foldl Nat.lcm x then .error .overflow else .ok (xs.foldl Nat.lcm x) := by
  induction xs generalizing x with
  | nil => simp [Nat.not_le.2 hx]
  | cons y xs ih =>
    have hl : 1 ≤ Nat.lcm x y := Nat.lcm_pos hx1 (hpos y (by simp))
    have hop : lcmChecked x y = .ok (Nat.lcm x y) := lcmChecked_eq (by omega)
    have hpos' : ∀ f ∈ xs, 1 ≤ f := fun f hf => hpos f (by simp [hf])
    by_cases hy : 2 ^ nbits ≤ Nat.lcm x y
    · rw [foldChecked_cons_overflow xs hop hy, if_pos]
      exact hy.trans (le_foldl_lcm hl hpos')
    · rw [foldChecked_cons_ok xs hop (Nat.not_le.1 hy), ih hl hpos' (Nat.not_le.1 hy), List.foldl_cons]

/-- A safe lcm fold answers the fold of lcm (41_fold_derivation.md R113). -/
theorem foldChecked_lcm_of_safe {nbits : Nat} {xs : List Nat} {x : Nat} (h : LcmSafe nbits x xs) :
    foldChecked nbits lcmChecked x xs = .ok (xs.foldl Nat.lcm x) := by
  induction xs generalizing x with
  | nil => rfl
  | cons y xs ih =>
    obtain ⟨h0, hfit, hrest⟩ := h
    rw [foldChecked_cons_ok xs (lcmChecked_eq h0) hfit, ih hrest, List.foldl_cons]

theorem validate_factors {fs : List Nat} (h : Factors fs) : validate fs = .ok fs := by
  simp only [validate, List.isEmpty_iff, h.1, if_false, List.any_eq_true, decide_eq_true_eq]
  rw [if_neg]
  rintro ⟨f, hf, hlt⟩
  have := h.2 f hf; omega

theorem validate_not_factors {fs : List Nat} (h : ¬ Factors fs) : validate fs = .error .invalidInput := by
  unfold validate
  split
  · rfl
  · next hne =>
    split
    · rfl
    · next hany =>
      exfalso; apply h
      refine ⟨by simpa using hne, fun f hf => ?_⟩
      by_contra hlt
      exact hany (List.any_eq_true.2 ⟨f, hf, by simpa using hlt⟩)

theorem pred_pos_of_factors {fs : List Nat} (h : Factors fs) : ∀ f ∈ fs.map (· - 1), 1 ≤ f := by
  intro f hf
  obtain ⟨g, hg, rfl⟩ := List.mem_map.1 hf
  have := h.2 g hg; omega

/-- A product that is answered is the product of a valid list and fits. -/
theorem product_ok {nbits : Nat} {fs : List Nat} {n : Nat} (h : product nbits fs = .ok n) :
    Factors fs ∧ n = fs.prod ∧ n < 2 ^ nbits := by
  by_cases hf : Factors fs
  · have hpos : ∀ f ∈ fs, 1 ≤ f := fun f hm => by have := hf.2 f hm; omega
    by_cases hn : nbits = 0
    · subst hn
      obtain ⟨f, gs, rfl⟩ := List.exists_cons_of_ne_nil hf.1
      rw [product, validate_factors hf] at h
      simp only at h
      rw [foldChecked_cons_overflow (z := 1 * f) gs rfl (by have := hf.2 f (by simp); simp; omega)] at h
      cases h
    · have h1 : 1 < 2 ^ nbits := Nat.one_lt_two_pow hn
      rw [product, validate_factors hf] at h
      simp only at h
      rw [foldChecked_mul hpos h1] at h
      split at h
      · cases h
      · next hlt =>
        simp only [Nat.one_mul, Except.ok.injEq] at h hlt
        exact ⟨hf, h.symm, by omega⟩
  · rw [product, validate_not_factors hf] at h; cases h

end Sys2Proof.Laws
end

