-- ==== Sys2Proof/Laws/Transform.lean ====
section
/-! SUPPORT. Square-and-multiply is exponentiation, and the Montgomery factor is R⁻¹
(42_transform.md R120, R122, R123). -/

namespace Sys2Proof.Laws

open Sys2Proof Sys2Proof.Machine

/-- The loop's invariant: i bits of k are still to come. -/
theorem powLoop_modEq (x k n i acc : Nat) :
    powLoop x k n i acc ≡ acc ^ (2 ^ i) * x ^ (k % 2 ^ i) [MOD n] := by
  induction i generalizing acc with
  | zero => simp [powLoop, Nat.ModEq, Nat.mod_one]
  | succ i ih =>
    have hbit : k % 2 ^ (i + 1) = 2 ^ i * (k.testBit i).toNat + k % 2 ^ i := by
      rw [Nat.pow_succ, Nat.mod_mul, Nat.toNat_testBit, Nat.add_comm]
    rw [powLoop, hbit]
    refine (ih _).trans ?_
    cases k.testBit i with
    | false =>
      simp only [Bool.false_eq_true, if_false, Bool.toNat_false, Nat.mul_zero, Nat.zero_add]
      refine Nat.ModEq.mul_right _ ?_
      refine ((Nat.mod_modEq _ _).pow _).trans ?_
      rw [← pow_two, ← pow_mul, pow_succ, Nat.mul_comm]
    | true =>
      simp only [if_true, Bool.toNat_true, Nat.mul_one]
      have h1 : (acc * acc % n * x % n) ^ 2 ^ i ≡ (acc * acc * x) ^ 2 ^ i [MOD n] :=
        ((Nat.mod_modEq _ _).trans ((Nat.mod_modEq _ _).mul_right _)).pow _
      refine (h1.mul_right _).trans ?_
      have : (acc * acc * x) ^ 2 ^ i * x ^ (k % 2 ^ i) = acc ^ 2 ^ (i + 1) * x ^ (2 ^ i + k % 2 ^ i) := by
        rw [mul_pow, ← pow_two, ← pow_mul, pow_succ, pow_add]; ring_nf
      rw [this]

theorem powLoop_lt {x k n i acc : Nat} (hn : n ≠ 0) (h : acc < n) : powLoop x k n i acc < n := by
  induction i generalizing acc with
  | zero => exact h
  | succ i ih =>
    rw [powLoop]
    apply ih
    split <;> exact Nat.mod_lt _ (Nat.pos_of_ne_zero hn)

/-- The result of MODEXP's algorithm is x^k mod n (42_transform.md R120). -/
theorem powMod_eq (x k : Nat) {n : Nat} (hn : n ≠ 0) : powMod x k n = x ^ k % n := by
  have hk : k % 2 ^ (k.log2 + 1) = k := Nat.mod_eq_of_lt Nat.lt_log2_self
  have h := powLoop_modEq x k n (k.log2 + 1) (1 % n)
  rw [hk] at h
  have h' : powMod x k n ≡ x ^ k [MOD n] := by
    refine h.trans ?_
    have := ((Nat.mod_modEq 1 n).pow (2 ^ (k.log2 + 1))).mul_right (x ^ k)
    simpa using this
  have hlt : powMod x k n < n := powLoop_lt hn (Nat.mod_lt _ (Nat.pos_of_ne_zero hn))
  rw [← Nat.mod_eq_of_lt hlt]; exact h'

/-- R⁻¹ is in range and undoes R (42_transform.md R122). -/
theorem montInv_spec (nbits : Nat) {n : Nat} (h : n % 2 = 1) :
    montInv nbits n < n ∧ 2 ^ nbits * montInv nbits n % n = 1 % n := by
  have hn : n ≠ 0 := by omega
  have hodd : Nat.Coprime 2 n := (Nat.coprime_two_left).2 (Nat.odd_iff.2 h)
  have hg : Nat.gcd (2 ^ nbits % n) n = 1 := by
    rw [← Nat.gcd_rec, Nat.gcd_comm]; exact Nat.Coprime.pow_left nbits hodd
  obtain ⟨hlt, -, hinv⟩ := isInverse_emod hn hg
  refine ⟨hlt, ?_⟩
  rw [← hinv]
  exact (Nat.mod_modEq _ _).symm.mul_right _

/-- There is only one such factor. -/
theorem montInv_unique (nbits : Nat) {n r : Nat} (h : n % 2 = 1) (hr : r < n)
    (hinv : 2 ^ nbits * r % n = 1 % n) : r = montInv nbits n := by
  obtain ⟨hlt, hm⟩ := montInv_spec nbits h
  have hc : Nat.gcd n (2 ^ nbits) = 1 := by
    rw [Nat.gcd_comm]
    exact Nat.Coprime.pow_left nbits ((Nat.coprime_two_left).2 (Nat.odd_iff.2 h))
  have : r ≡ montInv nbits n [MOD n] := Nat.ModEq.cancel_left_of_coprime hc (hinv.trans hm.symm)
  rw [Nat.ModEq, Nat.mod_eq_of_lt hr, Nat.mod_eq_of_lt hlt] at this
  exact this

end Sys2Proof.Laws
end

