-- ==== Sys2Proof/Laws/Exec.lean ====
section
/-! SUPPORT. Everything a command's completion step can do, said once (60_exceptions.md R141 – R144). -/

namespace Sys2Proof.Laws

open Sys2Proof Sys2Proof.Machine

/-- Each command's own rule, after the common checks. -/
def ownRule (nbits : Nat) : Instr → RegFile → CmdResult
  | .nop, _ => .ok []
  | .mov rd ra, regs => .ok [(rd, regs.read ra)]
  | .egcd rd ra rb, regs => egcdOwn nbits rd ra rb regs
  | .modinv rd ra rb, regs => modinvOwn rd ra rb regs
  | .lcm rd ra rb, regs => lcmOwn nbits rd ra rb regs
  | .lcmfold rd ra len, regs => writeNat rd (fold1Checked nbits lcmChecked (regs.rangeNums ra len))
  | .prod rd ra len, regs => writeNat rd (product nbits (regs.rangeNums ra len))
  | .phi m rd ra len, regs => writeNat rd (totient nbits m (regs.rangeNums ra len))
  | .derivd rd ra rb, regs => writeNat rd (deriveExponent (regs.num ra) (regs.num rb))
  | .derivdf m rd ra rb len, regs =>
    writeNat rd (deriveFromFactors nbits m (regs.num ra) (regs.rangeNums rb len))
  | .modexp rd ra rb rn, regs => modexpOwn rd ra rb rn regs
  | .modmul rd ra rb rn, regs => modmulOwn rd ra rb rn regs
  | .montmul rd ra rb rn, regs => montmulOwn nbits rd ra rb rn regs

/-- Every arm is the shared completion over the command's own rule. -/
theorem exec_eq (i : Instr) (s : State) : exec i s = runCommand i (ownRule s.config.nbits i) s := by
  cases i <;> rfl

/-- A BUSY engine completes every command (60_exceptions.md R141). -/
theorem exec_busy (i : Instr) {s : State} {snap : Snapshot} (h : s.engine = .busy snap) :
    exec i s = .next (s.complete (cmdResult i (ownRule s.config.nbits i) snap.regs)) := by
  rw [exec_eq]; unfold runCommand; rw [h]

theorem exec_idle (i : Instr) {s : State} (h : s.engine = .idle) : exec i s = .refused .engineIdle := by
  rw [exec_eq]; unfold runCommand; rw [h]

/-- What a completion step of a command can do: the writes of an `Ok`, or an `Err`. -/
theorem exec_next_cases {i : Instr} {s t : State} (h : exec i s = .next t) :
    ∃ snap, s.engine = .busy snap ∧
      ((∃ ws, cmdResult i (ownRule s.config.nbits i) snap.regs = .ok ws ∧ t = s.completeOk ws)
      ∨ ∃ e, cmdResult i (ownRule s.config.nbits i) snap.regs = .error e ∧ t = s.completeErr e) := by
  cases he : s.engine with
  | idle => rw [exec_idle i he] at h; cases h
  | busy snap =>
    rw [exec_busy i he] at h
    cases h
    refine ⟨snap, rfl, ?_⟩
    cases cmdResult i (ownRule s.config.nbits i) snap.regs with
    | ok ws => exact .inl ⟨ws, rfl, rfl⟩
    | error e => exact .inr ⟨e, rfl, rfl⟩

theorem cmdResult_of_checks {i : Instr} {own : RegFile → CmdResult} {regs : RegFile}
    (hw : i.wellFormed = true) (hs : readsSigned regs i = false) : cmdResult i own regs = own regs := by
  simp [cmdResult, commonChecks, hw, hs]

/-- A result that is `Ok` passed the common checks. -/
theorem cmdResult_ok {i : Instr} {own : RegFile → CmdResult} {regs : RegFile} {ws : List Write}
    (h : cmdResult i own regs = .ok ws) :
    i.wellFormed = true ∧ readsSigned regs i = false ∧ own regs = .ok ws := by
  unfold cmdResult commonChecks at h
  split at h
  · cases h
  · next hc =>
    split at hc
    · cases hc
    · next hw =>
      split at hc
      · cases hc
      · next hs => exact ⟨by simpa using hw, by simpa using hs, h⟩

theorem fails_illegal {i : Instr} {s : State} {snap : Snapshot} (h : s.engine = .busy snap)
    (hw : i.wellFormed = false) : Fails i s .illegalCommand := by
  refine ⟨_, exec_busy i h, ?_⟩
  simp only [cmdResult, commonChecks, hw, Bool.not_false, if_true, complete_error]
  exact failedWith_completeErr s _

theorem fails_signed {i : Instr} {s : State} {snap : Snapshot} (h : s.engine = .busy snap)
    (hw : i.wellFormed = true) (hs : readsSigned snap.regs i = true) : Fails i s .signedOperand := by
  refine ⟨_, exec_busy i h, ?_⟩
  simp only [cmdResult, commonChecks, hw, hs, Bool.not_true, Bool.false_eq_true, if_false, if_true, complete_error]
  exact failedWith_completeErr s _

/-- A command fails with the error its own rule raises, once the common checks pass. -/
theorem fails_own {i : Instr} {s : State} {snap : Snapshot} {e : ErrCode} (h : s.engine = .busy snap)
    (hw : i.wellFormed = true) (hs : readsSigned snap.regs i = false)
    (ho : ownRule s.config.nbits i snap.regs = .error e) : Fails i s e := by
  refine ⟨_, exec_busy i h, ?_⟩
  rw [cmdResult_of_checks hw hs, ho]
  exact failedWith_completeErr s e

/-- A command succeeds with the writes of its own rule, once the common checks pass. -/
theorem exec_own_ok {i : Instr} {s : State} {snap : Snapshot} {ws : List Write} (h : s.engine = .busy snap)
    (hw : i.wellFormed = true) (hs : readsSigned snap.regs i = false)
    (ho : ownRule s.config.nbits i snap.regs = .ok ws) : exec i s = .next (s.completeOk ws) := by
  rw [exec_busy i h, cmdResult_of_checks hw hs, ho, complete_ok]

theorem writesOne_own {i : Instr} {s : State} {snap : Snapshot} {rd : RegIdx} {v : OpReg}
    (h : s.engine = .busy snap) (hw : i.wellFormed = true) (hs : readsSigned snap.regs i = false)
    (ho : ownRule s.config.nbits i snap.regs = .ok [(rd, v)]) : WritesOne i s rd v :=
  ⟨_, exec_own_ok h hw hs ho, completed_completeOk s _, by simp, fun k hk => by
    simp [read_write_other _ _ hk]⟩

/-- No register that is read has sign 1, for two and three operands and for a range. -/
theorem readsSigned_two {regs : RegFile} {i : Instr} {ra rb : RegIdx} (h : numericRegs i = [ra, rb]) :
    readsSigned regs i = ((regs.read ra).sign || (regs.read rb).sign) := by
  simp [readsSigned, h]

theorem readsSigned_three {regs : RegFile} {i : Instr} {ra rb rn : RegIdx} (h : numericRegs i = [ra, rb, rn]) :
    readsSigned regs i = ((regs.read ra).sign || ((regs.read rb).sign || (regs.read rn).sign)) := by
  simp [readsSigned, h]

theorem readsSigned_range {regs : RegFile} {i : Instr} {start : RegIdx} {len : Len}
    (h : numericRegs i = rangeRegs start len) : readsSigned regs i = true ↔ RangeSigned regs start len := by
  simp [readsSigned, h, RangeSigned]

theorem writeNat_ok {rd : RegIdx} {r : Except ErrCode Nat} {ws : List Write} (h : writeNat rd r = .ok ws) :
    ∃ v, r = .ok v ∧ ws = [(rd, OpReg.ofNat v)] := by
  cases r with
  | error e => cases h
  | ok v => exact ⟨v, rfl, by simpa [writeNat, eq_comm] using h⟩

/-- The deferred writes of a command name exactly its destination registers. -/
theorem ownRule_dests {nbits : Nat} {i : Instr} {regs : RegFile} {ws : List Write}
    (h : ownRule nbits i regs = .ok ws) : ws.map Prod.fst = destRegs i := by
  have one : ∀ {rd : RegIdx} {r : Except ErrCode Nat}, writeNat rd r = .ok ws → ws.map Prod.fst = [rd] := by
    intro rd r hr; obtain ⟨v, -, rfl⟩ := writeNat_ok hr; rfl
  cases i with
  | nop => cases h; rfl
  | mov => cases h; rfl
  | egcd rd ra rb =>
    simp only [ownRule, egcdOwn] at h
    split at h
    · cases h
    · cases h; rfl
  | modinv rd ra rb =>
    simp only [ownRule, modinvOwn] at h
    split at h
    · cases h
    · split at h
      · cases h
      · cases h; rfl
  | lcm rd ra rb =>
    simp only [ownRule, lcmOwn] at h
    split at h
    · cases h
    · split at h
      · cases h
      · cases h; rfl
  | lcmfold => exact one h
  | prod => exact one h
  | phi => exact one h
  | derivd => exact one h
  | derivdf => exact one h
  | modexp rd ra rb rn =>
    simp only [ownRule, modexpOwn] at h
    split at h
    · cases h
    · cases h; rfl
  | modmul rd ra rb rn =>
    simp only [ownRule, modmulOwn] at h
    split at h
    · cases h
    · cases h; rfl
  | montmul rd ra rb rn =>
    simp only [ownRule, montmulOwn] at h
    split at h
    · cases h
    · split at h
      · cases h
      · cases h; rfl

theorem inverseMod_lt {a m d : Nat} (hm : m ≠ 0) (h : inverseMod a m = .ok d) : d < m := by
  by_cases hg : Nat.gcd a m = 1
  · rw [inverseMod_coprime hg] at h; cases h; exact emod_lt _ hm
  · rw [inverseMod_notCoprime hg] at h; cases h

theorem totient_ok {nbits : Nat} {m : Method} {fs : List Nat} {φ : Nat} (h : totient nbits m fs = .ok φ) :
    Factors fs ∧ phi nbits m fs = .ok φ := by
  unfold totient at h
  split at h
  · cases h
  · by_cases hf : Factors fs
    · rw [validate_factors hf] at h; exact ⟨hf, h⟩
    · rw [validate_not_factors hf] at h; cases h

theorem phi_pos_lt {nbits : Nat} {m : Method} {fs : List Nat} {φ : Nat} (hf : Factors fs)
    (hfit : ∀ f ∈ fs, f < 2 ^ nbits) (h : phi nbits m fs = .ok φ) : 1 ≤ φ ∧ φ < 2 ^ nbits := by
  have hpos := pred_pos_of_factors hf
  obtain ⟨f, gs, rfl⟩ := List.exists_cons_of_ne_nil hf.1
  have h1 : 1 < 2 ^ nbits := by have := hfit f (by simp); have := hf.2 f (by simp); omega
  cases m with
  | euler =>
    simp only [phi] at h
    have hlt := foldChecked_lt h1 h
    rw [foldChecked_mul hpos h1] at h
    split at h
    · cases h
    · simp only [Except.ok.injEq, Nat.one_mul] at h
      exact ⟨h ▸ List.one_le_prod_of_one_le hpos, hlt⟩
  | carmichael =>
    simp only [phi, List.map_cons, fold1Checked] at h
    have hf1 : f - 1 < 2 ^ nbits := by have := hfit f (by simp); omega
    have hlt := foldChecked_lt hf1 h
    have hpos' : ∀ g ∈ gs.map (· - 1), 1 ≤ g := fun g hg => hpos g (by simp at hg ⊢; exact .inr hg)
    have hf0 : 1 ≤ f - 1 := hpos (f - 1) (by simp)
    rw [foldChecked_lcm hf0 hpos' hf1] at h
    split at h
    · cases h
    · simp only [Except.ok.injEq] at h
      exact ⟨h ▸ foldl_lcm_pos hf0 hpos', hlt⟩
  | m2 => cases h
  | m3 => cases h

/-- A command on legal registers writes only legal values (10_state.md R22, R23). -/
theorem ownRule_writes_ok {nbits : Nat} {i : Instr} {regs : RegFile} {ws : List Write}
    (hr : ∀ k, (regs.read k).Ok nbits) (h : ownRule nbits i regs = .ok ws) : ∀ w ∈ ws, w.2.Ok nbits := by
  have hn : ∀ k, regs.num k < 2 ^ nbits := fun k => (hr k).1
  have hrange : ∀ start len, ∀ f ∈ regs.rangeNums start len, f < 2 ^ nbits :=
    fun start len => rangeNums_lt (fun k => (hr k).1) start len
  have one : ∀ {rd : RegIdx} {r : Except ErrCode Nat}, writeNat rd r = .ok ws →
      (∀ v, r = .ok v → v < 2 ^ nbits) → ∀ w ∈ ws, w.2.Ok nbits := by
    intro rd r hw hv w hm
    obtain ⟨v, hr, rfl⟩ := writeNat_ok hw
    obtain rfl := List.mem_singleton.1 hm
    exact ofNat_ok (hv v hr)
  cases i with
  | nop => cases h; simp
  | mov rd ra => cases h; simpa using hr ra
  | egcd rd ra rb =>
    simp only [ownRule, egcdOwn] at h
    split at h
    · cases h
    · next ho =>
      cases h
      simp only [Bool.or_eq_true, not_or, overflows_eq_true, Nat.not_le] at ho
      have hglt : (egcd (regs.num ra) (regs.num rb)).1 < 2 ^ nbits := by
        rw [egcd_gcd]
        rcases Nat.eq_zero_or_pos (regs.num ra) with h0 | h0
        · rw [h0, Nat.gcd_zero_left]; exact hn rb
        · exact lt_of_le_of_lt (Nat.gcd_le_left _ h0) (hn ra)
      intro w hw
      simp only [List.mem_cons, List.not_mem_nil, or_false] at hw
      rcases hw with rfl | rfl | rfl
      · exact ofNat_ok hglt
      · exact ofInt_ok ho.1
      · exact ofInt_ok ho.2
  | modinv rd ra rb =>
    simp only [ownRule, modinvOwn] at h
    split at h
    · cases h
    · next d hd =>
      split at h
      · cases h
      · next hm =>
        cases h
        simpa using ofNat_ok ((inverseMod_lt hm hd).trans (hn rb))
  | lcm rd ra rb =>
    simp only [ownRule, lcmOwn] at h
    split at h
    · cases h
    · split at h
      · cases h
      · next ho =>
        cases h
        simpa using ofNat_ok (overflows_eq_false.1 (by simpa using ho))
  | lcmfold rd ra len => exact one h fun v hv => fold1Checked_lt (hrange ra len) hv
  | prod rd ra len => exact one h fun v hv => (product_ok hv).2.2
  | phi m rd ra len =>
    exact one h fun v hv => (phi_pos_lt (totient_ok hv).1 (hrange ra len) (totient_ok hv).2).2
  | derivd rd ra rb =>
    refine one h fun v hv => ?_
    unfold deriveExponent at hv
    split at hv
    · cases hv
    · split at hv
      · cases hv
      · next hφ => exact (inverseMod_lt (by omega) hv).trans (hn rb)
  | derivdf m rd ra rb len =>
    refine one h fun v hv => ?_
    unfold deriveFromFactors at hv
    split at hv
    · cases hv
    · split at hv
      · cases hv
      · next φ hφ =>
        obtain ⟨h1, h2⟩ := phi_pos_lt (totient_ok hφ).1 (hrange rb len) (totient_ok hφ).2
        exact (inverseMod_lt (by omega) hv).trans h2
  | modexp rd ra rb rn =>
    simp only [ownRule, modexpOwn] at h
    split at h
    · cases h
    · next h0 =>
      cases h
      rw [powMod_eq _ _ h0]
      simpa using ofNat_ok ((Nat.mod_lt _ (Nat.pos_of_ne_zero h0)).trans (hn rn))
  | modmul rd ra rb rn =>
    simp only [ownRule, modmulOwn] at h
    split at h
    · cases h
    · next h0 =>
      cases h
      simpa using ofNat_ok ((Nat.mod_lt _ (Nat.pos_of_ne_zero h0)).trans (hn rn))
  | montmul rd ra rb rn =>
    simp only [ownRule, montmulOwn] at h
    split at h
    · cases h
    · next h0 =>
      split at h
      · cases h
      · cases h
        simpa using ofNat_ok ((Nat.mod_lt _ (Nat.pos_of_ne_zero h0)).trans (hn rn))

end Sys2Proof.Laws
end

