-- ==== Sys2Proof/Laws/PerInstr.lean ====
section
/-! SUPPORT. Per command: the fields its row does not use are 0 in its word (30_encoding.md R73, R74). -/

namespace Sys2Proof.Laws.UnusedFieldsZero

open Sys2Proof

/-- The must-be-zero fields of 30_encoding.md R74, and the reserved bits, read 0 in the command's word. -/
def Statement (i : Instr) : Prop :=
  let c := fieldsOf (encode i)
  c.top = 0 ∧
  match i with
  | .nop => c.m = 0 ∧ c.rd = 0 ∧ c.ra = 0 ∧ c.rb = 0 ∧ c.rn = 0 ∧ c.len = 0 ∧ c.f = 0
  | .mov _ _ => c.m = 0 ∧ c.rb = 0 ∧ c.rn = 0 ∧ c.len = 0 ∧ c.f = 0
  | .egcd _ _ _ => c.m = 0 ∧ c.rn = 0 ∧ c.len = 0 ∧ c.f = 0
  | .modinv _ _ _ => c.m = 0 ∧ c.rn = 0 ∧ c.len = 0 ∧ c.f = 0
  | .lcm _ _ _ => c.m = 0 ∧ c.rn = 0 ∧ c.len = 0 ∧ c.f = 0
  | .lcmfold _ _ _ => c.m = 0 ∧ c.rb = 0 ∧ c.rn = 0 ∧ c.f = 0
  | .prod _ _ _ => c.m = 0 ∧ c.rb = 0 ∧ c.rn = 0 ∧ c.f = 0
  | .phi _ _ _ _ => c.rb = 0 ∧ c.rn = 0 ∧ c.f = 0
  | .derivd _ _ _ => c.m = 0 ∧ c.rn = 0 ∧ c.len = 0 ∧ c.f = 0
  | .derivdf _ _ _ _ _ => c.rn = 0 ∧ c.f = 1
  | .modexp _ _ _ _ => c.m = 0 ∧ c.len = 0 ∧ c.f = 0
  | .modmul _ _ _ _ => c.m = 0 ∧ c.len = 0 ∧ c.f = 0
  | .montmul _ _ _ _ => c.m = 0 ∧ c.len = 0 ∧ c.f = 0

theorem nop : Statement .nop := by
  simp [Statement, encode, fieldsOf_pack]

theorem mov (rd ra : RegIdx) : Statement (.mov rd ra) := by
  simp [Statement, encode, fieldsOf_pack]

theorem egcd (rd ra rb : RegIdx) : Statement (.egcd rd ra rb) := by
  simp [Statement, encode, fieldsOf_pack]

theorem modinv (rd ra rb : RegIdx) : Statement (.modinv rd ra rb) := by
  simp [Statement, encode, fieldsOf_pack]

theorem lcm (rd ra rb : RegIdx) : Statement (.lcm rd ra rb) := by
  simp [Statement, encode, fieldsOf_pack]

theorem lcmfold (rd ra : RegIdx) (len : Len) : Statement (.lcmfold rd ra len) := by
  simp [Statement, encode, fieldsOf_pack]

theorem prod (rd ra : RegIdx) (len : Len) : Statement (.prod rd ra len) := by
  simp [Statement, encode, fieldsOf_pack]

theorem phi (m : Method) (rd ra : RegIdx) (len : Len) : Statement (.phi m rd ra len) := by
  simp [Statement, encode, fieldsOf_pack, method_code_lt]

theorem derivd (rd ra rb : RegIdx) : Statement (.derivd rd ra rb) := by
  simp [Statement, encode, fieldsOf_pack]

theorem derivdf (m : Method) (rd ra rb : RegIdx) (len : Len) : Statement (.derivdf m rd ra rb len) := by
  simp [Statement, encode, fieldsOf_pack, method_code_lt]

theorem modexp (rd ra rb rn : RegIdx) : Statement (.modexp rd ra rb rn) := by
  simp [Statement, encode, fieldsOf_pack]

theorem modmul (rd ra rb rn : RegIdx) : Statement (.modmul rd ra rb rn) := by
  simp [Statement, encode, fieldsOf_pack]

theorem montmul (rd ra rb rn : RegIdx) : Statement (.montmul rd ra rb rn) := by
  simp [Statement, encode, fieldsOf_pack]

end Sys2Proof.Laws.UnusedFieldsZero
end

