-- ==== Sys2Proof/Laws/Step.lean ====
section
/-! SUPPORT. Everything a step can do, said once (10_state.md R21; 60_exceptions.md R150). -/

namespace Sys2Proof.Laws

open Sys2Proof Sys2Proof.Machine

theorem step_nil {s : State} (h : s.agenda = []) : step s = engineStep s := by unfold step; rw [h]

theorem step_engine {s : State} {rest : List Turn} (h : s.agenda = .engine :: rest) :
    step s = engineStep { s with agenda := rest } := by unfold step; rw [h]

theorem step_hardReset {s : State} {rest : List Turn} (h : s.agenda = .hardReset :: rest) :
    step s = .next ({ s with agenda := rest } : State).resetAll := by unfold step; rw [h]; rfl

theorem step_host {s : State} {a : Access} {onErr : OnBusErr} {rest : List Turn}
    (h : s.agenda = .host a onErr :: rest) : step s = hostStep a onErr { s with agenda := rest } := by
  unfold step; rw [h]

theorem engineStep_idle {s : State} (h : s.engine = .idle) : engineStep s = .next s := by
  unfold engineStep; rw [h]

theorem engineStep_ok {s : State} {snap : Snapshot} {i : Instr} (h : s.engine = .busy snap)
    (hd : decode snap.cw = .ok i) : engineStep s = exec i s := by
  unfold engineStep; rw [h]; simp only [hd]

theorem engineStep_error {s : State} {snap : Snapshot} {e : DecodeError} (h : s.engine = .busy snap)
    (hd : decode snap.cw = .error e) : engineStep s = .next (s.completeErr .illegalCommand) := by
  unfold engineStep; rw [h]; simp only [hd]; rfl

/-- Everything the engine's turn can do. -/
theorem engineStep_cases (s : State) :
    (s.engine = .idle ∧ engineStep s = .next s)
    ∨ ∃ snap, s.engine = .busy snap
        ∧ ((∃ i ws, decode snap.cw = .ok i
              ∧ cmdResult i (ownRule s.config.nbits i) snap.regs = .ok ws
              ∧ engineStep s = .next (s.completeOk ws))
          ∨ ∃ e, engineStep s = .next (s.completeErr e)) := by
  cases he : s.engine with
  | idle => exact .inl ⟨rfl, engineStep_idle he⟩
  | busy snap =>
    refine .inr ⟨snap, rfl, ?_⟩
    cases hd : decode snap.cw with
    | error e => exact .inr ⟨_, engineStep_error he hd⟩
    | ok i =>
      rw [engineStep_ok he hd, exec_busy i he]
      cases hc : cmdResult i (ownRule s.config.nbits i) snap.regs with
      | ok ws => exact .inl ⟨i, ws, rfl, hc, rfl⟩
      | error e => exact .inr ⟨e, rfl⟩

/-- Whose turn it was, and what it did. -/
theorem step_cases {s t : State} (h : step s = .next t) :
    (s.agenda = [] ∧ engineStep s = .next t)
    ∨ (∃ rest, s.agenda = .engine :: rest ∧ engineStep { s with agenda := rest } = .next t)
    ∨ (∃ rest, s.agenda = .hardReset :: rest ∧ t = ({ s with agenda := rest } : State).resetAll)
    ∨ ∃ a onErr rest, s.agenda = .host a onErr :: rest ∧ hostStep a onErr { s with agenda := rest } = .next t := by
  cases ha : s.agenda with
  | nil => exact .inl ⟨rfl, by rw [← step_nil ha]; exact h⟩
  | cons turn rest =>
    cases turn with
    | engine => exact .inr (.inl ⟨rest, rfl, by rw [← step_engine ha]; exact h⟩)
    | hardReset =>
      rw [step_hardReset ha] at h; cases h
      exact .inr (.inr (.inl ⟨rest, rfl, rfl⟩))
    | host a onErr => exact .inr (.inr (.inr ⟨a, onErr, rest, rfl, by rw [← step_host ha]; exact h⟩))

/-- A host access that reaches a target: a read. -/
theorem step_read {s : State} {off : Nat} {rest : List Turn} {t : Target} (h : s.AtAccess off .read rest)
    (hlt : off < 0x8000) (ht : targetOf s.config.nwords off = some t) :
    step s = .next
      { (({ s with agenda := rest } : State).readTarget t).1 with
        response := some (.okRead (({ s with agenda := rest } : State).readTarget t).2) } := by
  obtain ⟨onErr, ha⟩ := h
  rw [step_host ha]
  have := hostStep_inBlock { s with agenda := rest } .w32 .read onErr hlt
  rw [busAccess_read (s := { s with agenda := rest }) ht] at this
  simpa using this

/-- A host access that reaches a target: a write. -/
theorem step_write {s : State} {off : Nat} {rest : List Turn} {t : Target} {w : Word}
    (h : s.AtAccess off (.write w) rest) (hlt : off < 0x8000) (ht : targetOf s.config.nwords off = some t) :
    step s = .next { ({ s with agenda := rest } : State).writeTarget w t with response := some .okWrite } := by
  obtain ⟨onErr, ha⟩ := h
  rw [step_host ha]
  have := hostStep_inBlock { s with agenda := rest } .w32 (.write w) onErr hlt
  rw [busAccess_write (s := { s with agenda := rest }) w ht] at this
  simpa using this

/-- The invariant speaks of none of the model's own fields. -/
theorem Inv.of_eq {s t : State} (h : s.Inv) (hc : t.config = s.config) (hr : t.regs = s.regs)
    (he : t.engine = s.engine) (hm : t.cmd = s.cmd) (hd : t.done = s.done) : t.Inv := by
  obtain ⟨h1, h2, h3, h4, h5⟩ := h
  refine ⟨hc ▸ h1, by rw [hr, hc]; exact h2, by rw [he, hr]; exact h3, by rw [he, hm]; exact h4, ?_⟩
  unfold State.busy at *
  rw [he, hd]; exact h5

/-- A run of one step and more. -/
theorem run_next {s t : State} (n : Nat) (h : step s = .next t) :
    Host.Core.run Sys2Proof.core (n + 1) s = Host.Core.run Sys2Proof.core n t := by
  have : Sys2Proof.core.step s = .next t := h
  simp only [Host.Core.run, this]

end Sys2Proof.Laws
end

