-- ==== Sys2Proof/Tests/Slice0.lean ====
section
/-! SUPPORT. Tests on fixed values, the expected results taken from the spec (95_test_vectors.md, and
the encoding of 30_encoding.md R71 written out), and a witness for the hypotheses of each obligation. -/

namespace Sys2Proof.Tests

open Sys2Proof Sys2Proof.Machine

-- The tests run one after another: each waits for the kernel, and waiting together takes a thread each.
set_option Elab.async false

/-! ### Small states: NBITS = 64, the block at 0x10000 -/

/-- The tables of 95_test_vectors.md use NBITS = 64. -/
def smallConfig : Config := ⟨2, 0x10000, ⟨5, 1, 16⟩⟩

/-- R0, R1, … hold the values, the rest 0. -/
def regsOf (vals : List Int) : RegFile := Vector.ofFn fun k => OpReg.ofInt (vals.getD k.val 0)

/-- An IDLE machine with these operands. -/
def idle (vals : List Int) : State := { State.reset with config := smallConfig, regs := regsOf vals }

/-- The command word accepted on these operands. -/
def busyOn (w : Word) (vals : List Int) : State := (idle vals).accept w

/-- CODE and the values of some registers after the completion step. -/
def ran (w : Word) (vals : List Int) (ks : List RegIdx) : Option (Nat × List Int) :=
  match step (busyOn w vals) with
  | .next t => some (codeNumber t.code, ks.map fun k => (t.regs.read k).value)
  | .fault _ => none
  | .refused _ => none

/-- The state whose next turn is this 32-bit access. -/
def accessing (s : State) (off : Nat) (op : BusOp) : State :=
  { s with agenda := [.host ⟨.w32, s.config.base + off, op⟩ .ignores] }

/-- The state after a step that goes on. -/
def stepped (s : State) : Option State :=
  match step s with
  | .next t => some t
  | .fault _ => none
  | .refused _ => none

/-! ### WellFormed: each check refuses an ill-formed term -/

theorem test_wf_egcd_refuses_rd_14 : (Instr.egcd 14 0 1).wellFormed = false := by decide
theorem test_wf_lcmfold_refuses_range : (Instr.lcmfold 0 15 2).wellFormed = false := by decide
theorem test_wf_prod_refuses_range : (Instr.prod 0 0 17).wellFormed = false := by decide
theorem test_wf_phi_refuses_range : (Instr.phi .m2 0 1 16).wellFormed = false := by decide
theorem test_wf_derivdf_refuses_range : (Instr.derivdf .euler 4 0 15 15).wellFormed = false := by decide
theorem test_wf_admits_boundaries :
    (Instr.egcd 13 0 1).wellFormed = true ∧ (Instr.prod 0 0 16).wellFormed = true
    ∧ (Instr.lcmfold 0 15 1).wellFormed = true ∧ (Instr.phi .m3 4 15 0).wellFormed = true
    ∧ (Instr.derivdf .m2 4 0 15 1).wellFormed = true := by decide

/-! ### Decoding: words written out by the pattern of R71, `00 f lllll nnnn bbbb aaaa dddd mm oooooo` -/

theorem test_decode_nop : decode 0b00_0_00000_0000_0000_0000_0000_00_000000 = .ok .nop := by decide
theorem test_decode_mov : decode 0b00_0_00000_0000_0000_0011_0101_00_000001 = .ok (.mov 5 3) := by decide
theorem test_decode_egcd : decode 0b00_0_00000_0000_0001_0000_0010_00_000010 = .ok (.egcd 2 0 1) := by decide
theorem test_decode_modinv : decode 0b00_0_00000_0000_0001_0000_0010_00_000011 = .ok (.modinv 2 0 1) := by decide
theorem test_decode_lcm : decode 0b00_0_00000_0000_0001_0000_0010_00_000100 = .ok (.lcm 2 0 1) := by decide
theorem test_decode_lcmfold : decode 0b00_0_00011_0000_0000_0000_1111_00_000101 = .ok (.lcmfold 15 0 3) := by decide
theorem test_decode_prod : decode 0b00_0_00010_0000_0000_0000_0100_00_000110 = .ok (.prod 4 0 2) := by decide
theorem test_decode_phi : decode 0b00_0_00010_0000_0000_0000_0010_01_000111 = .ok (.phi .carmichael 2 0 2) := by
  decide
theorem test_decode_derivd : decode 0b00_0_00000_0000_0001_0000_0010_00_001000 = .ok (.derivd 2 0 1) := by decide
theorem test_decode_derivdf :
    decode 0b00_1_00010_0000_0000_0010_0011_01_001000 = .ok (.derivdf .carmichael 3 2 0 2) := by decide
theorem test_decode_modexp : decode 0b00_0_00000_0010_0001_0000_0011_00_001001 = .ok (.modexp 3 0 1 2) := by decide
theorem test_decode_modmul : decode 0b00_0_00000_0010_0001_0000_0011_00_001010 = .ok (.modmul 3 0 1 2) := by decide
theorem test_decode_montmul : decode 0b00_0_00000_0010_0001_0000_0011_00_001011 = .ok (.montmul 3 0 1 2) := by decide

/-- The binary words above are the hexadecimal words of 95_test_vectors.md L2. -/
theorem test_words_of_the_vectors :
    encode (.mov 5 3) = 0x00003501 ∧ encode (.egcd 2 0 1) = 0x00010202 ∧ encode (.modinv 2 0 1) = 0x00010203
    ∧ encode (.lcm 2 0 1) = 0x00010204 ∧ encode (.lcmfold 15 0 3) = 0x03000F05
    ∧ encode (.prod 4 0 2) = 0x02000406 ∧ encode (.phi .carmichael 2 0 2) = 0x02000247
    ∧ encode (.derivd 2 0 1) = 0x00010208 ∧ encode (.derivdf .carmichael 3 2 0 2) = 0x22002348
    ∧ encode (.modexp 3 0 1 2) = 0x00210309 ∧ encode (.modmul 3 0 1 2) = 0x0021030A
    ∧ encode (.montmul 3 0 1 2) = 0x0021030B := by decide

/-- 95_test_vectors.md L2.14 and the ill-formed rows of L2.1 – L2.13. -/
theorem test_decode_refuses :
    [0x0000000C, 0x0000003F, 0x40000000, 0x80010209, 0xFFFFFFFF, 0x00000080, 0x00010E02, 0x00110202,
      0x0200F005, 0x11000005, 0x00010406, 0x00010248, 0x2F0F0408, 0x22103408, 0x00210349, 0x00000100,
      0x00010501].all (fun w => match decode w with | .ok _ => false | .error _ => true) = true := by decide

theorem test_decodeTableWord_montmul : decodeTableWord 32 0x0021030B = some (.montmul 3 0 1 2) := by decide
theorem test_decodeTableWord_refuses : decodeTableWord 32 0x0000000C = none := by decide

/-- A placed word runs in the very next step: EGCD on the reset operands, egcd(0, 0) = (0, 0, 1). -/
theorem test_placed_word_runs :
    (stepped (State.reset.withFetchWord 32 0x00010202)).map
      (fun t => (t.done, codeNumber t.code, (t.regs.read 4).value, t.cmd)) = some (true, 0, 1, 0x00010202) := by
  decide +kernel

/-! ### One step of each command (95_test_vectors.md L2, the table of its family) -/

theorem test_nop_completes : ran 0x00000000 [7] [0] = some (0, [7]) := by decide +kernel
theorem test_nop_with_rd_is_illegal : ran 0x00000100 [7] [0, 1] = some (11, [7, 0]) := by decide +kernel

theorem test_mov_copies_sign : ran 0x00003501 [0, 0, 0, -9] [5, 3] = some (0, [-9, -9]) := by decide +kernel
theorem test_mov_rb_is_illegal : ran 0x00010501 [3] [5] = some (11, [0]) := by decide +kernel

theorem test_egcd_negative_u : ran 0x00010202 [240, 46] [2, 3, 4] = some (0, [2, -9, 47]) := by decide +kernel
theorem test_egcd_overlaps_sources : ran 0x00010002 [240, 46] [0, 1, 2] = some (0, [2, -9, 47]) := by decide +kernel

theorem test_modinv_normalises : ran 0x00010203 [3, 7] [2] = some (0, [5]) := by decide +kernel
theorem test_modinv_zero_modulus : ran 0x00010203 [1, 0, 8] [2] = some (7, [8]) := by decide +kernel

theorem test_lcm_fits : ran 0x00010204 [4294967295, 4294967296] [2] = some (0, [18446744069414584320]) := by
  decide +kernel
theorem test_lcm_undefined : ran 0x00010204 [0, 0, 8] [2] = some (6, [8]) := by decide +kernel

theorem test_lcmfold_three : ran 0x03000F05 [4, 6, 10] [15] = some (0, [60]) := by decide +kernel
theorem test_lcmfold_overflows_first : ran 0x03000F05 [9223372036854775808, 3, 0] [15] = some (9, [0]) := by
  decide +kernel

theorem test_prod_textbook : ran 0x02000406 [61, 53] [4] = some (0, [3233]) := by decide +kernel
theorem test_prod_validates_first : ran 0x03000406 [1099511627776, 1099511627776, 1] [4] = some (1, [0]) := by
  decide +kernel

theorem test_phi_carmichael : ran 0x02000247 [61, 53] [2] = some (0, [780]) := by decide +kernel
theorem test_phi_method_before_input : ran 0x000004C7 [] [4] = some (2, [0]) := by decide +kernel

theorem test_derivd_textbook : ran 0x00010208 [17, 3120] [2] = some (0, [2753]) := by decide +kernel
theorem test_derivd_exponent_first : ran 0x00010208 [0, 0] [2] = some (3, [0]) := by decide +kernel

theorem test_derivdf_carmichael : ran 0x22002348 [61, 53, 17] [3] = some (0, [413]) := by decide +kernel
theorem test_derivdf_exponent_in_range : ran 0x22000408 [5, 7] [4] = some (0, [5]) := by decide +kernel

theorem test_modexp_textbook : ran 0x00210309 [65, 17, 3233] [3] = some (0, [2790]) := by decide +kernel
theorem test_modexp_zero_to_zero : ran 0x00210309 [0, 0, 5] [3] = some (0, [1]) := by decide +kernel

theorem test_modmul_full_product : ran 0x0020030A [18446744073709551615, 0, 3233] [3] = some (0, [408]) := by
  decide +kernel
theorem test_modmul_zero_modulus : ran 0x0021030A [5, 7, 0] [3] = some (7, [0]) := by decide +kernel

theorem test_montmul_nbits_64 : ran 0x0021030B [65, 2790, 3233] [3] = some (0, [2497]) := by decide +kernel
theorem test_montmul_even : ran 0x0021030B [5, 7, 8] [3] = some (8, [0]) := by decide +kernel

/-- 95_test_vectors.md L2.12: R⁻¹ mod 3233 at NBITS = 4096. -/
theorem test_montInv_4096 : montInv 4096 3233 = 757 := by decide +kernel

/-- The loop of 40_kernel.md R100 on the example of R101. -/
theorem test_egcdLoop : egcdLoop 240 46 = (2, -9, 47) ∧ egcdLoop 46 240 = (2, 47, -9) := by decide +kernel

/-! ### Host accesses (95_test_vectors.md L2.15) -/

/-- B1, B2: ID and CFG. -/
theorem test_id_and_cfg :
    (stepped (accessing (idle []) 0x000 .read)).bind State.response = some (.okRead 0x4E544531)
    ∧ (stepped (accessing (idle []) 0x004 .read)).bind State.response = some (.okRead 0x01100002)
    ∧ cfgWord Config.reference = 0x01100080 := by decide +kernel

/-- B4: reserved bits of CTRL are ignored. -/
theorem test_ctrl_reserved_ignored :
    (stepped (accessing (idle [61]) 0x008 (.write 0xFFFFFFFD))).map
      (fun t => (t.ctrlWord, t.regs.num 0)) = some (1, 61) := by decide +kernel

/-- B8: only ERR is cleared. -/
theorem test_status_w1c :
    (stepped (accessing { idle [] with done := true, err := true, cmdOvr := true, winOvr := true } 0x010
      (.write 0x00000004))).map State.statusWord = some 0x0000001A := by decide +kernel

/-- B12: word 1 is written, word 0 stays. -/
theorem test_window_write_keeps_word_0 :
    (stepped (accessing (idle [61]) 0x1004 (.write 1))).map (fun t => (t.regs.read 0).value)
      = some 4294967357 := by decide +kernel

/-- B13, B17, B18: a word i ≥ NWORDS, a reserved offset and a misaligned one get BUSERR. -/
theorem test_bus_errors :
    (stepped (accessing (idle []) 0x1008 (.write 1))).bind State.response = some .busErr
    ∧ (stepped (accessing (idle []) 0x7FFC .read)).bind State.response = some .busErr
    ∧ (stepped (accessing (idle []) 0x002 .read)).bind State.response = some .busErr := by decide +kernel

/-- B20, B21: SIGN shows R3 = −9, and a window write clears its sign. -/
theorem test_sign :
    (stepped (accessing (idle [0, 0, 0, -9]) 0x018 .read)).bind State.response = some (.okRead 0x00000008)
    ∧ (stepped (accessing (idle [0, 0, 0, -9]) 0x1C00 (.write 9))).map State.signWord = some 0 := by
  decide +kernel

/-- B22, B23: a CMD write and a window write while BUSY are dropped and noted. -/
theorem test_busy_writes_dropped :
    (stepped (accessing (busyOn 0x00003501 [5]) 0x00C (.write 0))).map (fun t => (t.cmd, t.cmdOvr, t.busy))
      = some (0x00003501, true, true)
    ∧ (stepped (accessing (busyOn 0x00003501 [5]) 0x1000 (.write 99))).map (fun t => (t.regs.num 0, t.winOvr))
      = some (5, true) := by decide +kernel

/-- B26: acceptance leaves ERR and ERRCODE alone. -/
theorem test_accept_keeps_err :
    (stepped (accessing { idle [] with err := true, done := true, code := some .notCoprime } 0x00C (.write 0))).map
      (fun t => (t.busy, t.done, t.err, t.errcodeWord)) = some (true, false, true, 4) := by decide +kernel

/-- 70_reset_and_hazards.md R172: a soft reset abandons a running command. -/
theorem test_soft_reset_abandons :
    (stepped (accessing { busyOn 0x00210309 [65, 17, 3233] with ie := true } 0x008 (.write 3))).map
      (fun t => (t.busy, t.ie, t.cmd, t.statusWord, t.response)) = some (false, false, 0, 0, some .okWrite) := by
  decide +kernel

/-! ### The assembler and the host's macros (30_encoding.md R80, R81; 00_scope.md R18) -/

theorem test_assemble_text :
    assembleText "DERIVDF.CARM r3, r2, r0, #2 ; d".toList = some [0x22002348]
    ∧ assembleText "DERIVDF R3, R2, R0, #2".toList = some [0x22002308]
    ∧ assembleText "MODSQR r3, r0, r2".toList = some [0x0020030A]
    ∧ assembleText ".word 0x2F0F0408".toList = some [0x2F0F0408]
    ∧ assembleText "; text".toList = some []
    ∧ assembleText "PROD r4, r0, #17".toList = none
    ∧ assembleText "EGCD r16, r0, r1".toList = none := by decide +kernel

/-- LOADR 0, 2^32 + 61 is two writes, word 0 first; ACK is one (00_scope.md R18). -/
theorem test_host_macros :
    hostTurns smallConfig [.loadr 0 4294967357, .ack]
      = [writeTurn smallConfig 0x1000 61, writeTurn smallConfig 0x1004 1, writeTurn smallConfig 0x010 0x1E] := by
  decide +kernel

/-! ### Witnesses: for each obligation with hypotheses, states and operands that meet them, each clause
at a boundary of its range -/

theorem busyOn_engine (w : Word) (vals : List Int) : (busyOn w vals).engine = .busy ⟨w, regsOf vals⟩ := rfl

theorem witness_DecodeOfEncodeIsTheCommand :
    (Instr.egcd 13 15 0).wellFormed = true ∧ (Instr.lcmfold 0 15 1).wellFormed = true
    ∧ (Instr.phi .m3 15 0 16).wellFormed = true ∧ (Instr.derivdf .m2 15 15 15 1).wellFormed = true := by decide

theorem witness_DecodedWordIsTheEncoding : decode 0x2100F4C8 = .ok (.derivdf .m3 4 15 0 1) := by decide

theorem illFormed_reserved_opcode : IllFormed 0x0000000C := .inr (.inl (by decide))
theorem not_illFormed_nop : ¬ IllFormed 0x00000000 := by simp [IllFormed, bits]

/-- The lowest reserved opcode: it is refused, accepted by an IDLE engine, and then completes. -/
theorem witness_IllFormedWordsRaiseIllegalCommand :
    (∃ e, decode 0x0000000C = .error e) ∧ IllFormed 0x0000000C
    ∧ (accessing (idle []) 0x00C (.write 0x0000000C)).AtAccess 0x00C (.write 0x0000000C) []
    ∧ (accessing (idle []) 0x00C (.write 0x0000000C)).engine = .idle
    ∧ (busyOn 0x0000000C []).engine = .busy ⟨0x0000000C, regsOf []⟩ ∧ (busyOn 0x0000000C []).agenda = [] :=
  ⟨⟨.reservedOpcode, by decide⟩, illFormed_reserved_opcode, ⟨.ignores, rfl⟩, rfl, rfl, rfl⟩

theorem witness_EveryWordIsOneTableRowOrIllegal :
    ¬ IllFormed 0x00000000 ∧ IllFormed 0x0000000C
    ∧ (busyOn 0x0000000C []).engine = .busy ⟨0x0000000C, regsOf []⟩
    ∧ decode 0x00000000 = .ok .nop ∧ (⟨.nop, 0x00000000, 0xFFFFFFFF⟩ : OpcodeRow) ∈ opcodeTable
    ∧ (⟨.nop, 0x00000000, 0xFFFFFFFF⟩ : OpcodeRow).Fits 0x00000000 :=
  ⟨not_illFormed_nop, illFormed_reserved_opcode, rfl, by decide, by decide,
    by decide, by simp, by simp, by simp⟩

theorem witness_FactorRangeIsConsecutive :
    (15 : RegIdx).val + (1 : Len).val ≤ 16 ∧ (0 : RegIdx).val + (16 : Len).val ≤ 16
    ∧ 0 < (rangeRegs 15 1).length ∧ 15 < (rangeRegs 0 16).length := by decide

theorem witness_PseudoInstructionsAreOneCommand : (16 : Len).val ≤ 16 ∧ 16 < (17 : Len).val := by decide

theorem witness_StepRunsTheDecodedCommand :
    (busyOn 0x00003501 [1]).engine = .busy ⟨0x00003501, regsOf [1]⟩ ∧ decode 0x00003501 = .ok (.mov 5 3)
    ∧ (busyOn 0x00003501 [1]).agenda = []
    ∧ ({ busyOn 0x00003501 [1] with agenda := [.engine, .hardReset] } : State).agenda = .engine :: [.hardReset] := by
  decide +kernel

theorem witness_PlacedWordRunsNext : (Instr.derivdf .euler 4 3 15 1).wellFormed = true := by decide

theorem witness_IdleEngineChangesNothing :
    (idle [1]).engine = .idle ∧ (idle [1]).agenda = []
    ∧ ({ idle [1] with agenda := [.engine] } : State).agenda = .engine :: [] := by decide +kernel

theorem witness_CompletionNeedsBusy : (idle [1]).engine = .idle := rfl

/-- R0 = 1, R1 = −1, R2 = 3: signed in each place a command reads; rd at its bound 13; ranges that
end at R15. -/
theorem witness_CommonChecksComeFirst :
    (busyOn 0 [1, -1, 3]).engine = .busy ⟨0, regsOf [1, -1, 3]⟩ ∧ (Instr.egcd 14 0 1).wellFormed = false
    ∧ ((regsOf [1, -1, 3]).read 1).sign = true ∧ (13 : RegIdx).val ≤ 13
    ∧ (1 : RegIdx).val + (15 : Len).val ≤ 16 ∧ RangeSigned (regsOf [1, -1, 3]) 1 15 := by
  refine ⟨rfl, by decide, by decide +kernel, by decide, by decide, 1, by decide, by decide +kernel⟩

theorem witness_NopCompletesAndWritesNothing :
    bits (0x00000100 : Word).toNat 5 0 = 0 ∧ (0x00000100 : Word) ≠ 0
    ∧ (busyOn 0x00000100 [1]).engine = .busy ⟨0x00000100, regsOf [1]⟩
    ∧ (busyOn 0 [1]).engine = .busy ⟨0, regsOf [1]⟩ := by decide +kernel

theorem witness_MovCopiesMagnitudeAndSign : (busyOn 0x00003501 [-9]).engine = .busy ⟨0x00003501, regsOf [-9]⟩ := rfl

/-- rd = 14 and 13; a signed operand; 240 and 46, whose coefficients fit; and an NTE of NWORDS = 0,
on which a coefficient 1 does not (the Overflow clause is not met at a legal NBITS, R104). -/
theorem witness_EgcdWritesTheTriple :
    (busyOn 0x00010202 [240, 46]).engine = .busy ⟨0x00010202, regsOf [240, 46]⟩
    ∧ 13 < (14 : RegIdx).val ∧ (13 : RegIdx).val ≤ 13
    ∧ ((regsOf [-3, 7]).read 0).sign = true
    ∧ ((regsOf [240, 46]).read 0).sign = false ∧ ((regsOf [240, 46]).read 1).sign = false
    ∧ egcd ((regsOf [240, 46]).read 0).mag ((regsOf [240, 46]).read 1).mag = (2, -9, 47)
    ∧ (-9 : Int).natAbs < 2 ^ smallConfig.nbits ∧ (47 : Int).natAbs < 2 ^ smallConfig.nbits
    ∧ egcd ((regsOf [0, 0]).read 0).mag ((regsOf [0, 0]).read 1).mag = (0, 0, 1)
    ∧ 2 ^ Config.nbits ⟨0, 0, ⟨0, 0, 0⟩⟩ ≤ (1 : Int).natAbs := by decide +kernel

theorem witness_ModinvWritesTheInverse :
    (busyOn 0x00010203 [17, 3120]).engine = .busy ⟨0x00010203, regsOf [17, 3120]⟩
    ∧ ((regsOf [5, -7]).read 1).sign = true
    ∧ ((regsOf [1, 0]).read 0).sign = false ∧ ((regsOf [1, 0]).read 1).sign = false
    ∧ Nat.gcd ((regsOf [4, 8]).read 0).mag ((regsOf [4, 8]).read 1).mag ≠ 1
    ∧ Nat.gcd ((regsOf [1, 0]).read 0).mag ((regsOf [1, 0]).read 1).mag = 1 ∧ ((regsOf [1, 0]).read 1).mag = 0
    ∧ Nat.gcd ((regsOf [0, 1]).read 0).mag ((regsOf [0, 1]).read 1).mag = 1
    ∧ ((regsOf [0, 1]).read 1).mag ≠ 0 := by decide +kernel

/-- lcm(2^63, 2) = 2^63 fits, lcm(2^63, 3) does not. -/
theorem witness_LcmWritesTheLeastCommonMultiple :
    (busyOn 0x00010204 [0, 0]).engine = .busy ⟨0x00010204, regsOf [0, 0]⟩
    ∧ ((regsOf [-1]).read 0).sign = true
    ∧ ((regsOf [0, 0]).read 0).mag = 0 ∧ ((regsOf [0, 0]).read 1).mag = 0
    ∧ ((regsOf [9223372036854775808, 3]).read 0).mag = 9223372036854775808
    ∧ ((regsOf [9223372036854775808, 3]).read 1).mag = 3
    ∧ 2 ^ smallConfig.nbits ≤ 9223372036854775808 * 3 / Nat.gcd 9223372036854775808 3
    ∧ 9223372036854775808 * 2 / Nat.gcd 9223372036854775808 2 < 2 ^ smallConfig.nbits := by decide +kernel

theorem unsigned_range (vals : List Int) (ra : RegIdx) (len : Len)
    (h : (rangeRegs ra len).all (fun k => !((regsOf vals).read k).sign) = true) :
    ¬ RangeSigned (regsOf vals) ra len := by
  rintro ⟨k, hk, hs⟩
  have := List.all_eq_true.1 h k hk
  simp [hs] at this

/-- Ranges that end at R15 and past it; the empty range; [12] alone; [3, 0, 0], whose second step is
lcm(0, 0); [2^63, 3], whose first step does not fit. -/
theorem witness_LcmfoldFoldsTheRange :
    (busyOn 0x01000F05 [12]).engine = .busy ⟨0x01000F05, regsOf [12]⟩
    ∧ 16 < (15 : RegIdx).val + (2 : Len).val ∧ (15 : RegIdx).val + (1 : Len).val ≤ 16
    ∧ RangeSigned (regsOf [4, -6]) 0 2
    ∧ ¬ RangeSigned (regsOf [12]) 0 1 ∧ (0 : Len).val = 0
    ∧ (regsOf [12]).rangeNums 0 1 = [12] ∧ LcmSafe smallConfig.nbits 12 []
    ∧ (regsOf [3, 0, 0]).rangeNums 0 3 = 3 :: ([0] ++ 0 :: [])
    ∧ LcmSafe smallConfig.nbits 3 [0] ∧ [0].foldl Nat.lcm 3 = 0
    ∧ (regsOf [9223372036854775808, 3]).rangeNums 0 2 = 9223372036854775808 :: ([] ++ 3 :: [])
    ∧ 2 ^ smallConfig.nbits ≤ Nat.lcm ([].foldl Nat.lcm 9223372036854775808) 3 := by
  refine ⟨rfl, by decide, by decide, ⟨1, by decide, by decide +kernel⟩, unsigned_range _ _ _ (by decide +kernel),
    rfl, by decide +kernel, trivial, by decide +kernel, ⟨by decide, by decide +kernel, trivial⟩, by decide +kernel,
    by decide +kernel, by decide +kernel⟩

/-- [1], an empty range, [2]; a product 2^64 and one just below it. -/
theorem witness_ProdWritesTheProduct :
    (busyOn 0x01000406 [2]).engine = .busy ⟨0x01000406, regsOf [2]⟩
    ∧ 16 < (0 : RegIdx).val + (17 : Len).val ∧ (0 : RegIdx).val + (16 : Len).val ≤ 16
    ∧ RangeSigned (regsOf [3, -5]) 0 2 ∧ ¬ RangeSigned (regsOf [2]) 0 1
    ∧ (regsOf [2]).rangeNums 0 1 = [2]
    ∧ ¬ Factors [] ∧ ¬ Factors [1] ∧ Factors [2] ∧ [2].prod < 2 ^ smallConfig.nbits
    ∧ Factors [4294967296, 4294967296] ∧ 2 ^ smallConfig.nbits ≤ [4294967296, 4294967296].prod := by
  refine ⟨rfl, by decide, by decide, ⟨1, by decide, by decide +kernel⟩, unsigned_range _ _ _ (by decide +kernel),
    by decide +kernel, ?_, ?_, ?_, ?_, ?_, ?_⟩ <;> simp [Factors, smallConfig, Config.nbits]

/-- m = 2, 3, 0 and 1; [1] and [2]; 2^32 · (2^32 + 1), which does not fit. -/
theorem witness_PhiWritesTheTotient :
    (busyOn 0x01000407 [2]).engine = .busy ⟨0x01000407, regsOf [2]⟩
    ∧ 16 < (1 : RegIdx).val + (16 : Len).val ∧ (0 : RegIdx).val + (16 : Len).val ≤ 16
    ∧ RangeSigned (regsOf [-3, 5]) 0 2 ∧ ¬ RangeSigned (regsOf [2]) 0 1
    ∧ (regsOf [2]).rangeNums 0 1 = [2] ∧ (∀ f ∈ [2], f < 2 ^ smallConfig.nbits)
    ∧ Method.m2.code = 2 ∧ Method.m3.code = 3 ∧ Method.euler.code < 2 ∧ Method.carmichael.code < 2
    ∧ ¬ Factors [1] ∧ Factors [2] ∧ totientValue .carmichael [2] < 2 ^ smallConfig.nbits
    ∧ Factors [4294967297, 4294967298]
    ∧ 2 ^ smallConfig.nbits ≤ totientValue .euler [4294967297, 4294967298] := by
  refine ⟨rfl, by decide, by decide, ⟨0, by decide, by decide +kernel⟩, unsigned_range _ _ _ (by decide +kernel),
    by decide +kernel, by decide +kernel, by decide, by decide, by decide, by decide, ?_, ?_, by decide +kernel, ?_,
    by decide +kernel⟩ <;> simp [Factors]

theorem witness_DerivdWritesTheExponent :
    (busyOn 0x00010208 [1, 1]).engine = .busy ⟨0x00010208, regsOf [1, 1]⟩
    ∧ ((regsOf [17, -3120]).read 1).sign = true
    ∧ ((regsOf [1, 1]).read 0).sign = false ∧ ((regsOf [1, 1]).read 1).sign = false
    ∧ ((regsOf [0, 48]).read 0).mag = 0
    ∧ ((regsOf [1, 0]).read 0).mag ≠ 0 ∧ ((regsOf [1, 0]).read 1).mag = 0
    ∧ Nat.gcd ((regsOf [3, 48]).read 0).mag ((regsOf [3, 48]).read 1).mag ≠ 1
    ∧ Nat.gcd ((regsOf [1, 1]).read 0).mag ((regsOf [1, 1]).read 1).mag = 1 := by decide +kernel

/-- e in R3, the factors from R0: e = 0; m = 2; [61, 1]; an Overflow; gcd(3, 48) = 3; φ = 1. -/
theorem witness_DerivdfWritesTheExponent :
    (busyOn 0x21003408 [2, 0, 0, 1]).engine = .busy ⟨0x21003408, regsOf [2, 0, 0, 1]⟩
    ∧ 16 < (15 : RegIdx).val + (2 : Len).val ∧ (15 : RegIdx).val + (1 : Len).val ≤ 16
    ∧ RangeSigned (regsOf [61, -53, 0, 17]) 0 2
    ∧ ((regsOf [2, 0, 0, 1]).read 3).sign = false ∧ ¬ RangeSigned (regsOf [2, 0, 0, 1]) 0 1
    ∧ ((regsOf [2, 0, 0, 0]).read 3).mag = 0 ∧ ((regsOf [2, 0, 0, 1]).read 3).mag = 1
    ∧ (regsOf [2, 0, 0, 1]).rangeNums 0 1 = [2] ∧ (∀ f ∈ [2], f < 2 ^ smallConfig.nbits)
    ∧ ¬ Factors [61, 1] ∧ Factors [2] ∧ totientValue .euler [2] = 1 ∧ Nat.gcd 1 (totientValue .euler [2]) = 1
    ∧ Factors [4294967297, 4294967298]
    ∧ 2 ^ smallConfig.nbits ≤ totientValue .euler [4294967297, 4294967298]
    ∧ Factors [3, 5, 7] ∧ Nat.gcd 3 (totientValue .euler [3, 5, 7]) ≠ 1 := by
  refine ⟨rfl, by decide, by decide, ⟨1, by decide, by decide +kernel⟩, by decide +kernel,
    unsigned_range _ _ _ (by decide +kernel), by decide +kernel, by decide +kernel, by decide +kernel,
    by decide +kernel, ?_, ?_, by decide, by decide, ?_, by decide +kernel, ?_, by decide⟩ <;> simp [Factors]

/-- A signed exponent; n = 0; n = 1. The same states serve MODMUL. -/
theorem witness_ModexpWritesThePower :
    (busyOn 0x00210309 [0, 0, 1]).engine = .busy ⟨0x00210309, regsOf [0, 0, 1]⟩
    ∧ ((regsOf [65, -17, 3233]).read 1).sign = true
    ∧ ((regsOf [0, 0, 1]).read 0).sign = false ∧ ((regsOf [0, 0, 1]).read 1).sign = false
    ∧ ((regsOf [0, 0, 1]).read 2).sign = false
    ∧ ((regsOf [5, 7, 0]).read 2).mag = 0 ∧ ((regsOf [0, 0, 1]).read 2).mag ≠ 0 := by decide +kernel

theorem witness_ModmulWritesTheReducedProduct :
    (busyOn 0x0021030A [5, 7, 1]).engine = .busy ⟨0x0021030A, regsOf [5, 7, 1]⟩
    ∧ ((regsOf [5, 7, -8]).read 2).sign = true
    ∧ ((regsOf [5, 7, 1]).read 0).sign = false ∧ ((regsOf [5, 7, 1]).read 1).sign = false
    ∧ ((regsOf [5, 7, 1]).read 2).sign = false
    ∧ ((regsOf [5, 7, 0]).read 2).mag = 0 ∧ ((regsOf [5, 7, 1]).read 2).mag ≠ 0 := by decide +kernel

/-- n = 0, n = 2, n = 1. -/
theorem witness_MontmulWritesTheMontgomeryProduct :
    (busyOn 0x0021030B [5, 7, 1]).engine = .busy ⟨0x0021030B, regsOf [5, 7, 1]⟩
    ∧ ((regsOf [-5, 7, 1]).read 0).sign = true
    ∧ ((regsOf [5, 7, 1]).read 0).sign = false ∧ ((regsOf [5, 7, 1]).read 1).sign = false
    ∧ ((regsOf [5, 7, 1]).read 2).sign = false
    ∧ ((regsOf [5, 7, 0]).read 2).mag = 0
    ∧ ((regsOf [5, 7, 2]).read 2).mag ≠ 0 ∧ ((regsOf [5, 7, 2]).read 2).mag % 2 = 0
    ∧ ((regsOf [5, 7, 1]).read 2).mag % 2 = 1 := by decide +kernel

/-- 2^128 mod 3233 = 1232 (95_test_vectors.md L2.9), and the multiplier 1. -/
theorem witness_MontmulConvertsInAndOut :
    (busyOn 0x0021030B [65, 1232, 3233]).engine = .busy ⟨0x0021030B, regsOf [65, 1232, 3233]⟩
    ∧ ((regsOf [65, 1232, 3233]).read 0).sign = false ∧ ((regsOf [65, 1232, 3233]).read 1).sign = false
    ∧ ((regsOf [65, 1232, 3233]).read 2).sign = false ∧ ((regsOf [65, 1232, 3233]).read 2).mag % 2 = 1
    ∧ ((regsOf [65, 1232, 3233]).read 1).mag
        = 2 ^ (2 * smallConfig.nbits) % ((regsOf [65, 1232, 3233]).read 2).mag
    ∧ ((regsOf [65, 1, 3233]).read 1).mag = 1 := by decide +kernel

theorem idle_wf : (idle []).config.wf := by decide

theorem regs_fit : ∀ k, ((regsOf [18446744073709551615, 9223372036854775808]).read k).mag < 2 ^ smallConfig.nbits := by
  decide +kernel

theorem witness_EgcdCoefficientsAreBounded :
    (busyOn 0x00010202 [18446744073709551615, 9223372036854775808]).config.wf
    ∧ (busyOn 0x00010202 [18446744073709551615, 9223372036854775808]).engine
        = .busy ⟨0x00010202, regsOf [18446744073709551615, 9223372036854775808]⟩
    ∧ ∀ k, ((regsOf [18446744073709551615, 9223372036854775808]).read k).mag < 2 ^ smallConfig.nbits :=
  ⟨by decide, rfl, regs_fit⟩

/-- lcm over [4, 6]: the step fits at NBITS = 64, does not fit at NBITS = 3, and lcm(0, 0) fails. -/
theorem witness_FoldsStopAtTheFirstFailingStep :
    foldChecked 64 lcmChecked 4 [] = .ok 4 ∧ lcmChecked 4 6 = .ok 12 ∧ 12 < 2 ^ 64
    ∧ foldChecked 3 lcmChecked 4 [] = .ok 4 ∧ 2 ^ 3 ≤ 12
    ∧ foldChecked 64 lcmChecked 3 [0] = .ok 0 ∧ lcmChecked 0 0 = .error .lcmUndefined := by decide +kernel

theorem witness_TotientIsTheFormula :
    Factors [2] ∧ (∀ f ∈ [2], f < 2 ^ 2) ∧ Method.carmichael.code < 2 ∧ totientValue .carmichael [2] < 2 ^ 2
    ∧ Factors [3, 3] ∧ (∀ f ∈ [3, 3], f < 2 ^ 2) ∧ 2 ^ 2 ≤ totientValue .euler [3, 3] := by
  refine ⟨by simp [Factors], by decide, by decide, by decide, by simp [Factors], by decide, by decide⟩

/-- [61, 53] with the Carmichael d; and the list [2] with message 1. -/
theorem witness_RsaRoundTrip :
    (∀ p ∈ [61, 53], Nat.Prime p) ∧ [61, 53].Nodup ∧ [61, 53] ≠ [2] ∧ product 64 [61, 53] = .ok 3233
    ∧ deriveFromFactors 64 .carmichael 17 [61, 53] = .ok 413 ∧ 3232 < 3233
    ∧ (∀ p ∈ [2], Nat.Prime p) ∧ [2].Nodup ∧ 1 ≠ 0 ∧ product 64 [2] = .ok 2
    ∧ deriveFromFactors 64 .euler 1 [2] = .ok 0 ∧ 1 < 2 := by
  refine ⟨fun p hp => ?_, by decide, by decide, by decide +kernel, by decide +kernel, by decide,
    fun p hp => List.mem_singleton.1 hp ▸ Nat.prime_two, by decide, by decide, by decide +kernel,
    by decide +kernel, by decide⟩
  simp only [List.mem_cons, List.not_mem_nil, or_false] at hp
  rcases hp with rfl | rfl <;> norm_num

theorem witness_EveryCommandCompletes : (busyOn 0x00003501 [1]).engine = .busy ⟨0x00003501, regsOf [1]⟩ := rfl

/-- Two states with the same snapshot and width, and nothing else in common. -/
theorem witness_OutcomeDependsOnSnapshotAndWidth :
    (busyOn 0x00000000 [1]).engine = .busy ⟨0x00000000, regsOf [1]⟩
    ∧ ({ busyOn 0x00000000 [1] with ie := true, err := true } : State).engine = .busy ⟨0x00000000, regsOf [1]⟩
    ∧ (busyOn 0x00000000 [1]).config.nwords = ({ busyOn 0x00000000 [1] with ie := true } : State).config.nwords
    ∧ engineStep (busyOn 0x00000000 [1]) = .next ((busyOn 0x00000000 [1]).completeOk [])
    ∧ engineStep { busyOn 0x00000000 [1] with ie := true, err := true }
        = .next (({ busyOn 0x00000000 [1] with ie := true, err := true } : State).completeOk [])
    ∧ ((busyOn 0x00000000 [1]).completeOk []).code = none ∧ decode 0x00003501 = .ok (.mov 5 3)
    ∧ 5 ∈ destRegs (.mov 5 3) := ⟨rfl, rfl, rfl, rfl, rfl, rfl, by decide, by decide⟩

theorem accessing_at (s : State) (off : Nat) (op : BusOp) : (accessing s off op).AtAccess off op [] := ⟨.ignores, rfl⟩

theorem witness_CsrReadsAreExact :
    ∀ off ∈ [0x000, 0x004, 0x008, 0x00C, 0x010, 0x014],
      (accessing (busyOn 0 [1]) off .read).AtAccess off .read [] := fun _ _ => accessing_at _ _ _

theorem witness_SignReadsTheSignBits :
    (accessing (idle [-1]) 0x018 .read).AtAccess 0x018 .read [] ∧ (accessing (idle [-1]) 0x018 .read).engine = .idle :=
  ⟨accessing_at _ _ _, rfl⟩

/-- The last word of R15 at NBITS = 64, 0x1000 + 0x400·15 + 4 = 0x4C04. -/
theorem witness_IdleWindowReadIsExact :
    1 < (idle [1]).config.nwords ∧ 1 < 256
    ∧ (accessing (idle [1]) 0x4C04 .read).AtAccess (0x1000 + 0x400 * (15 : RegIdx).val + 4 * 1) .read []
    ∧ (accessing (idle [1]) 0x4C04 .read).engine = .idle :=
  ⟨by decide, by decide, accessing_at _ _ _, rfl⟩

theorem witness_BusyReadsAreUnspecified :
    (accessing (busyOn 0 [1]) 0x4C04 .read).engine = .busy ⟨0, regsOf [1]⟩ ∧ 1 < (busyOn 0 [1]).config.nwords
    ∧ (accessing (busyOn 0 [1]) 0x4C04 .read).AtAccess (0x1000 + 0x400 * (15 : RegIdx).val + 4 * 1) .read []
    ∧ (accessing (busyOn 0 [1]) 0x018 .read).AtAccess 0x018 .read [] :=
  ⟨rfl, by decide, accessing_at _ _ _, accessing_at _ _ _⟩

theorem witness_IdleWindowWriteReplacesOneWord :
    1 < (idle [1]).config.nwords ∧ 1 < 256
    ∧ (accessing (idle [1]) 0x1004 (.write 1)).AtAccess (0x1000 + 0x400 * (0 : RegIdx).val + 4 * 1) (.write 1) []
    ∧ (accessing (idle [1]) 0x1004 (.write 1)).engine = .idle :=
  ⟨by decide, by decide, accessing_at _ _ _, rfl⟩

theorem witness_BusyWindowWriteIsDropped :
    1 < (busyOn 0 [1]).config.nwords ∧ 1 < 256
    ∧ (accessing (busyOn 0 [1]) 0x1004 (.write 1)).AtAccess (0x1000 + 0x400 * (0 : RegIdx).val + 4 * 1) (.write 1) []
    ∧ (accessing (busyOn 0 [1]) 0x1004 (.write 1)).engine = .busy ⟨0, regsOf [1]⟩ :=
  ⟨by decide, by decide, accessing_at _ _ _, rfl⟩

theorem witness_CmdWriteIsAcceptedOrDropped :
    (accessing (idle [1]) 0x00C (.write 0xFFFFFFFF)).AtAccess 0x00C (.write 0xFFFFFFFF) []
    ∧ (accessing (idle [1]) 0x00C (.write 0xFFFFFFFF)).engine = .idle
    ∧ (accessing (busyOn 0 [1]) 0x00C (.write 0)).AtAccess 0x00C (.write 0) []
    ∧ (accessing (busyOn 0 [1]) 0x00C (.write 0)).engine = .busy ⟨0, regsOf [1]⟩ :=
  ⟨accessing_at _ _ _, rfl, accessing_at _ _ _, rfl⟩

theorem witness_StatusWriteClearsWrittenOnes :
    (accessing (idle [1]) 0x010 (.write 0x1E)).AtAccess 0x010 (.write 0x1E) [] := accessing_at _ _ _

theorem witness_CtrlWriteSetsIeOrResets :
    (accessing (idle [1]) 0x008 (.write 1)).AtAccess 0x008 (.write 1) [] ∧ (1 : Word).getLsbD 1 = false
    ∧ (accessing (busyOn 0 [1]) 0x008 (.write 3)).AtAccess 0x008 (.write 3) [] ∧ (3 : Word).getLsbD 1 = true
    ∧ 1 < (busyOn 0 [1]).config.nwords :=
  ⟨accessing_at _ _ _, by decide, accessing_at _ _ _, by decide, by decide⟩

theorem witness_ReadOnlyWritesAreIgnored :
    ∀ off ∈ [0x000, 0x004, 0x014, 0x018],
      (accessing (idle [1]) off (.write 1)).AtAccess off (.write 1) [] := fun _ _ => accessing_at _ _ _

/-- Each case at an end of its range: 0x002, 0x01C, 0xFFC, 0x5000, 0x7FFC, R15's word 255 at 0x4FFC,
R0's word 2 at NBITS = 64; and both reactions of a host. -/
theorem witness_BusErrorChangesNothing :
    Width.w16 ≠ .w32 ∧ 0x002 % 4 ≠ 0 ∧ (0x01C ≤ 0x01C ∧ 0x01C < 0x1000) ∧ (0x01C ≤ 0xFFC ∧ 0xFFC < 0x1000)
    ∧ 0x5000 ≤ 0x5000 ∧ 0x7FFC < 0x8000
    ∧ (15 < 16 ∧ (idle []).config.nwords ≤ 255 ∧ 255 < 256 ∧ 0x4FFC = 0x1000 + 0x400 * 15 + 4 * 255)
    ∧ (0 < 16 ∧ (idle []).config.nwords ≤ 2 ∧ 2 < 256 ∧ 0x1008 = 0x1000 + 0x400 * 0 + 4 * 2)
    ∧ (accessing (idle []) 0x01C .read).agenda
        = .host ⟨.w32, (idle []).config.base + 0x01C, .read⟩ .ignores :: []
    ∧ ({ idle [] with agenda := [.host ⟨.w8, 0x10000, .read⟩ .traps] } : State).agenda
        = .host ⟨.w8, (idle []).config.base + 0x000, .read⟩ .traps :: [] := by decide +kernel

/-- The last address below the block and the first above it, by a host that traps on BUSERR. -/
theorem witness_AccessOutsideTheBlockIsAHostFault :
    ({ idle [] with agenda := [.host ⟨.w32, 0xFFFF, .read⟩ .traps] } : State).agenda
        = .host ⟨.w32, 0xFFFF, .read⟩ .traps :: [] ∧ 0xFFFF < (idle []).config.base
    ∧ (idle []).config.base + 0x8000 ≤ 0x18000 := by decide +kernel

theorem witness_RegisterMapIsComplete : smallConfig.nwords ≤ 256 ∧ Config.reference.nwords ≤ 256 := by decide

/-- IRQ at 1 and at 0; a W1C of DONE, an acceptance, a CTRL write with IE = 0 and one with SRST = IE = 1,
a hardware reset. -/
theorem witness_IrqFollowsIeAndDone :
    ({ idle [] with ie := true, done := true } : State).irq = true ∧ (idle []).irq = false
    ∧ exec .nop (busyOn 0 []) = .next ((busyOn 0 []).completeOk [])
    ∧ (accessing (idle []) 0x010 (.write 2)).AtAccess 0x010 (.write 2) [] ∧ (2 : Word).getLsbD 1 = true
    ∧ (∃ t, step (accessing (idle []) 0x010 (.write 2)) = .next t)
    ∧ (accessing (idle []) 0x00C (.write 0)).AtAccess 0x00C (.write 0) []
    ∧ (∃ t, step (accessing (idle []) 0x00C (.write 0)) = .next t)
    ∧ (accessing (idle []) 0x008 (.write 0)).AtAccess 0x008 (.write 0) [] ∧ (0 : Word).getLsbD 0 = false
    ∧ (∃ t, step (accessing (idle []) 0x008 (.write 0)) = .next t)
    ∧ (accessing (idle []) 0x008 (.write 3)).AtAccess 0x008 (.write 3) [] ∧ (3 : Word).getLsbD 1 = true
    ∧ (∃ t, step (accessing (idle []) 0x008 (.write 3)) = .next t)
    ∧ ∃ t, step { idle [] with agenda := [.hardReset] } = .next t :=
  ⟨rfl, rfl, rfl, accessing_at _ _ _, by decide, ⟨_, rfl⟩, accessing_at _ _ _, ⟨_, rfl⟩, accessing_at _ _ _,
    by decide, ⟨_, rfl⟩, accessing_at _ _ _, by decide, ⟨_, rfl⟩, ⟨_, rfl⟩⟩

theorem witness_HardResetResetsEverything :
    ({ busyOn 0 [1] with agenda := [.hardReset] } : State).agenda = .hardReset :: []
    ∧ 1 < (busyOn 0 [1]).config.nwords := ⟨rfl, by decide⟩

/-- A BUSY state that meets the invariant and whose completion goes on. -/
theorem witness_StepKeepsTheInvariant :
    (busyOn 0 [-1]).Inv ∧ step (busyOn 0 [-1]) = .next ((busyOn 0 [-1]).completeOk []) := by
  refine ⟨⟨by decide, fun k => ?_, ?_, ?_, fun _ => rfl⟩, rfl⟩
  · unfold OpReg.Ok
    revert k
    decide +kernel
  · intro snap h; cases h; rfl
  · intro snap h; cases h; rfl

theorem witness_ConfigurationNeverChanges :
    step (busyOn 0 [1]) = .next ((busyOn 0 [1]).completeOk []) := rfl

/-- A step that changes R0: a window write. -/
theorem witness_OnlyThreeThingsWriteRegisters :
    (stepped (accessing (idle [1]) 0x1000 (.write 2))).map (fun t => decide (t.regs.read 0 ≠ (idle [1]).regs.read 0))
      = some true := by decide +kernel

theorem witness_RunningCommandCannotBeChanged :
    (busyOn 0 [1]).engine = .busy ⟨0, regsOf [1]⟩ ∧ step (busyOn 0 [1]) = .next ((busyOn 0 [1]).completeOk []) :=
  ⟨rfl, rfl⟩

/-- A BUSY engine with a poll of STATUS before it. -/
theorem witness_AcceptedCommandCompletes :
    (accessing (busyOn 0 [1]) 0x010 .read).engine = .busy ⟨0, regsOf [1]⟩
    ∧ ∀ x ∈ (accessing (busyOn 0 [1]) 0x010 .read).agenda,
        x.Harmless smallConfig ∧ ¬ x.Resets smallConfig := by
  refine ⟨rfl, fun x hx => ?_⟩
  obtain rfl := List.mem_singleton.1 hx
  refine ⟨.inl ⟨rfl, by decide, by decide, by decide +kernel⟩, ?_⟩
  rintro ⟨-, h, -⟩
  exact absurd h (by decide)

theorem witness_HarmlessTurnsNeverStop :
    ∀ x ∈ (accessing (idle []) 0x7FFC .read).agenda.head?, x.Harmless smallConfig := by
  intro x hx
  obtain rfl : _ = x := by simpa [accessing] using hx
  exact .inr ⟨rfl, by decide, by decide⟩

/-- MODEXP with n = 0 after a NOP: the sequence stops at it with ZeroModulus. -/
theorem witness_HostSequenceStopsAtTheFirstError :
    ∃ t, runSequence [.nop, .modexp 3 0 1 2, .nop] (idle [65, 17, 0]) = .next (t, some .zeroModulus) := ⟨_, rfl⟩

end Sys2Proof.Tests
end

/-! PROOF. The parameters stay as they are: the engine's turn, the host's turn, then any step
(00_scope.md R5, R8). -/

namespace Sys2Proof.Proofs

open Sys2Proof Sys2Proof.Machine Sys2Proof.Laws

/-- The engine's turn goes nowhere, or completes a command; neither touches the parameters. -/
theorem engineStep_config {s t : State} (h : engineStep s = .next t) : t.config = s.config := by
  rcases engineStep_cases s with ⟨-, ht⟩ | ⟨_, -, ⟨_, _, -, -, ht⟩ | ⟨_, ht⟩⟩ <;>
    obtain rfl := Host.Outcome.next.inj (h.symm.trans ht)
  · rfl
  · exact completeOk_config ..
  · exact completeErr_config ..

/-- An access changes nothing, draws, or has a write's effect. -/
theorem busAccess_config (s : State) (width : Width) (off : Nat) (op : BusOp) :
    (s.busAccess width off op).1.config = s.config := by
  rcases busAccess_effect s width off op with h | h | ⟨-, w, t, -, -, h⟩ <;> rw [h]
  exact writeTarget_config s w t

theorem hostStep_config {a : Access} {onErr : OnBusErr} {s t : State} (h : hostStep a onErr s = .next t) :
    t.config = s.config := by
  obtain ⟨off, -, -, rfl⟩ := hostStep_next h
  exact busAccess_config s a.width off a.op

/-- Settles O53, by whose turn the step was. -/
theorem configurationNeverChanges : Obligations.ConfigurationNeverChanges := by
  intro s t h
  rcases step_cases h with ⟨-, he⟩ | ⟨rest, -, he⟩ | ⟨rest, -, rfl⟩ | ⟨a, onErr, rest, -, hh⟩
  · exact engineStep_config he
  · exact engineStep_config (s := { s with agenda := rest }) he
  · exact resetAll_config _
  · exact hostStep_config (s := { s with agenda := rest }) hh

end Sys2Proof.Proofs

/-! PROOF. A host turn as one of three outcomes, and accesses to a control and status register
(20_memory.md R46, R54, R56; 60_exceptions.md R147). -/

namespace Sys2Proof.Proofs

open Sys2Proof Sys2Proof.Machine Sys2Proof.Laws

/-- A host turn that goes on is a write to a target of the map, or it moves nothing but the model's own
response and draw counter. -/
theorem hostStep_effect {a : Access} {onErr : OnBusErr} {s t : State} (h : hostStep a onErr s = .next t) :
    (∃ resp n, t = { s with response := resp, draws := n })
    ∨ ∃ off w tgt, a = ⟨.w32, s.config.base + off, .write w⟩ ∧ targetOf s.config.nwords off = some tgt
        ∧ t = { s.writeTarget w tgt with response := some .okWrite } := by
  obtain ⟨off, -, ha, rfl⟩ := hostStep_next h
  obtain ⟨width, addr, op⟩ := a
  obtain rfl : addr = s.config.base + off := ha
  dsimp only
  rcases busAccess_cases s width off op with hb | ⟨-, -, tgt, -, hb⟩ | ⟨rfl, w, tgt, rfl, ht, hb⟩ <;> rw [hb]
  · exact .inl ⟨_, _, rfl⟩
  · rcases readTarget_state s tgt with hr | hr <;> rw [hr] <;> exact .inl ⟨_, _, rfl⟩
  · exact .inr ⟨off, w, tgt, rfl, ht, rfl⟩

theorem csrOffset_lt (c : Csr) : c.offset < 0x8000 := by cases c <;> decide

/-- A CSR reads its word, SIGN while IDLE and the others in either phase (20_memory.md R54). -/
theorem readTarget_csr {s : State} {c : Csr} (hc : c ≠ .sign ∨ s.engine = .idle) :
    s.readTarget (.csr c) = (s, s.csrWord c) := by
  cases c with
  | sign =>
    have hb : s.busy = false := busy_of_idle (hc.resolve_left fun hne => hne rfl)
    simp only [State.readTarget, hb, Bool.false_eq_true, if_false, State.csrWord]
  | _ => rfl

/-- The words of the CSRs do not show what turns are listed. -/
theorem csrWord_agenda (s : State) (rest : List Turn) (c : Csr) :
    ({ s with agenda := rest } : State).csrWord c = s.csrWord c := by cases c <;> rfl

theorem step_readCsr {s : State} {rest : List Turn} (c : Csr) (hc : c ≠ .sign ∨ s.engine = .idle)
    (h : s.AtAccess c.offset .read rest) : step s = .next (s.answered rest (.okRead (s.csrWord c))) := by
  rw [step_read h (csrOffset_lt c) (targetOf_csr _ c), readTarget_csr (s := { s with agenda := rest }) hc,
    csrWord_agenda]
  rfl

theorem step_writeCsr {s : State} {rest : List Turn} {w : Word} (c : Csr)
    (h : s.AtAccess c.offset (.write w) rest) :
    step s = .next
      { ({ s with agenda := rest } : State).writeTarget w (.csr c) with response := some .okWrite } :=
  step_write h (csrOffset_lt c) (targetOf_csr _ c)

end Sys2Proof.Proofs

/-! PROOF. The invariant of the machine (10_state.md R22, R23, R26, R30, R31): each operation keeps it,
so the engine's turn, the host's turn and every step do. -/

namespace Sys2Proof.Proofs

open Sys2Proof Sys2Proof.Machine Sys2Proof.Laws

/-- While IDLE only the configuration and the registers count: there is no snapshot. -/
theorem inv_of_idle {s : State} (hi : s.engine = .idle) (hc : s.config.wf)
    (hr : ∀ k : RegIdx, (s.regs.read k).Ok s.config.nbits) : s.Inv where
  config_ok := hc
  regs_ok := hr
  snap_regs snap hb := by rw [hi] at hb; cases hb
  snap_cw snap hb := by rw [hi] at hb; cases hb
  done_idle hb := by rw [busy_of_idle hi] at hb; cases hb

theorem completeOk_inv {s : State} {ws : List Write} (h : s.Inv) (hw : ∀ w ∈ ws, w.2.Ok s.config.nbits) :
    (s.completeOk ws).Inv :=
  inv_of_idle rfl h.config_ok (applyWrites_forall (OpReg.Ok s.config.nbits) ws s.regs h.regs_ok hw)

theorem completeErr_inv {s : State} (e : ErrCode) (h : s.Inv) : (s.completeErr e).Inv :=
  inv_of_idle rfl h.config_ok h.regs_ok

theorem resetAll_inv {s : State} (h : s.Inv) : s.resetAll.Inv :=
  inv_of_idle rfl h.config_ok fun k => by
    rw [resetAll_regs, read_drawRegs]
    exact ofNat_ok (drawMag_lt _ _)

/-- Acceptance takes the snapshot from the live registers and clears DONE (20_memory.md R52). -/
theorem accept_inv {s : State} (w : Word) (h : s.Inv) : (s.accept w).Inv where
  config_ok := h.config_ok
  regs_ok := h.regs_ok
  snap_regs snap hb := by cases hb; rfl
  snap_cw snap hb := by cases hb; rfl
  done_idle _ := rfl

/-- A STATUS write only clears DONE (10_state.md R31). -/
theorem writeStatus_inv {s : State} (w : Word) (h : s.Inv) : (s.writeStatus w).Inv where
  config_ok := h.config_ok
  regs_ok := h.regs_ok
  snap_regs := h.snap_regs
  snap_cw := h.snap_cw
  done_idle hb := by
    have hd : s.done = false := h.done_idle hb
    rw [writeStatus_done, hd]; rfl

theorem writeCtrl_inv {s : State} (w : Word) (h : s.Inv) : (s.writeCtrl w).Inv := by
  cases hs : w.getLsbD 1 with
  | true => rw [writeCtrl_reset hs]; exact resetAll_inv h
  | false => rw [writeCtrl_ie hs]; exact Inv.of_eq h rfl rfl rfl rfl rfl

theorem writeCmd_inv {s : State} (w : Word) (h : s.Inv) : (s.writeCmd w).Inv := by
  cases he : s.engine with
  | idle => rw [writeCmd_idle w he]; exact accept_inv w h
  | busy snap => rw [writeCmd_busy w he]; exact Inv.of_eq h rfl rfl rfl rfl rfl

/-- A window write stays inside NBITS and clears the sign (20_memory.md R51). -/
theorem writeWindow_inv {s : State} (k : RegIdx) {i : Nat} (w : Word) (hi : i < s.config.nwords) (h : s.Inv) :
    (s.writeWindow k i w).Inv := by
  cases he : s.engine with
  | idle =>
    rw [writeWindow_idle k i w he]
    refine inv_of_idle he h.config_ok fun k' => ?_
    rw [read_write]
    split
    · exact ofNat_ok (setMagWord_lt w hi (h.regs_ok k).1)
    · exact h.regs_ok k'
  | busy snap => rw [writeWindow_busy k i w he]; exact Inv.of_eq h rfl rfl rfl rfl rfl

theorem writeTarget_inv {s : State} {off : Nat} {tgt : Target} (w : Word)
    (ht : targetOf s.config.nwords off = some tgt) (h : s.Inv) : (s.writeTarget w tgt).Inv := by
  rcases targetOf_some ht with ⟨c, rfl, -⟩ | ⟨k, i, rfl, hi, -, -⟩
  · cases c with
    | ctrl => exact writeCtrl_inv w h
    | cmd => exact writeCmd_inv w h
    | status => exact writeStatus_inv w h
    | _ => exact h
  · exact writeWindow_inv k w hi h

/-- The engine's turn: a success writes only legal values, because the snapshot it computes from holds
the live registers. -/
theorem engineStep_inv {s t : State} (h : s.Inv) (hs : engineStep s = .next t) : t.Inv := by
  rcases engineStep_cases s with ⟨-, ht⟩ | ⟨snap, hb, ⟨i, ws, -, hres, ht⟩ | ⟨e, ht⟩⟩ <;>
    obtain rfl := Host.Outcome.next.inj (hs.symm.trans ht)
  · exact h
  · obtain ⟨-, -, hown⟩ := cmdResult_ok hres
    rw [h.snap_regs snap hb] at hown
    exact completeOk_inv h (ownRule_writes_ok h.regs_ok hown)
  · exact completeErr_inv e h

theorem hostStep_inv {a : Access} {onErr : OnBusErr} {s t : State} (h : s.Inv)
    (hs : hostStep a onErr s = .next t) : t.Inv := by
  rcases hostStep_effect hs with ⟨resp, n, rfl⟩ | ⟨off, w, tgt, -, ht, rfl⟩
  · exact Inv.of_eq h rfl rfl rfl rfl rfl
  · exact Inv.of_eq (writeTarget_inv w ht h) rfl rfl rfl rfl rfl

/-- Settles O52, by whose turn the step was. -/
theorem stepKeepsTheInvariant : Obligations.StepKeepsTheInvariant := by
  intro s t h hs
  have taken (rest : List Turn) : ({ s with agenda := rest } : State).Inv := Inv.of_eq h rfl rfl rfl rfl rfl
  rcases step_cases hs with ⟨-, he⟩ | ⟨rest, -, he⟩ | ⟨rest, -, rfl⟩ | ⟨a, onErr, rest, -, hh⟩
  · exact engineStep_inv h he
  · exact engineStep_inv (taken rest) he
  · exact resetAll_inv (taken rest)
  · exact hostStep_inv (taken rest) hh

/-- The model's own choice of the magnitudes it starts from (log 3): 0 fits every width. -/
theorem read_reset (k : RegIdx) : State.reset.regs.read k = OpReg.ofNat 0 := by
  simp [State.reset, RegFile.read, Vector.get_eq_getElem, OpReg.ofNat]

theorem read_reset_ok (k : RegIdx) : (State.reset.regs.read k).Ok State.reset.config.nbits := by
  rw [read_reset]
  exact ofNat_ok (Nat.two_pow_pos _)

theorem reset_config_wf : State.reset.config.wf := by decide

/-- Settles O51: the engine starts IDLE, with legal registers. -/
theorem resetMeetsTheInvariant : Obligations.ResetMeetsTheInvariant :=
  inv_of_idle rfl reset_config_wf read_reset_ok

/-- Settles O50, field by field of 10_state.md R37. -/
theorem startsInAResetState : Obligations.StartsInAResetState := by
  refine ⟨?_, rfl, reset_config_wf⟩
  exact
    { mag_fits := fun k => (read_reset_ok k).1
      sign_clear := fun k => by rw [read_reset]; rfl
      engine_idle := rfl
      id_word := rfl
      cfg_word := rfl
      ctrl_word := rfl
      cmd_word := rfl
      status_word := rfl
      errcode_word := rfl
      sign_word := rfl
      irq_low := rfl }

end Sys2Proof.Proofs

/-! PROOF. What writes an operand register (10_state.md R24): a window write while IDLE, a success that
names it, a reset. -/

namespace Sys2Proof.Proofs

open Sys2Proof Sys2Proof.Machine Sys2Proof.Laws

/-- A register that a success changes is one of the command's destinations. -/
theorem mem_destRegs_of_changed {nbits : Nat} {i : Instr} {regs r : RegFile} {ws : List Write} {k : RegIdx}
    (hown : ownRule nbits i regs = .ok ws) (hne : (applyWrites r ws).read k ≠ r.read k) : k ∈ destRegs i := by
  rw [← ownRule_dests hown]
  by_contra hk
  exact hne (read_applyWrites_other ws r k fun w hw e => hk (e ▸ List.mem_map_of_mem hw))

theorem engineStep_changes {s t : State} {k : RegIdx} (h : engineStep s = .next t)
    (hne : t.regs.read k ≠ s.regs.read k) :
    ∃ snap i, s.engine = .busy snap ∧ decode snap.cw = .ok i ∧ k ∈ destRegs i
      ∧ t.engine = .idle ∧ t.code = none := by
  rcases engineStep_cases s with ⟨-, ht⟩ | ⟨snap, hb, ⟨i, ws, hd, hres, ht⟩ | ⟨e, ht⟩⟩ <;>
    obtain rfl := Host.Outcome.next.inj (h.symm.trans ht)
  · exact absurd rfl hne
  · obtain ⟨-, -, hown⟩ := cmdResult_ok hres
    exact ⟨snap, i, hb, hd, mem_destRegs_of_changed hown hne, rfl, rfl⟩
  · exact absurd rfl hne

/-- A host write that changes a register is a write to its window while IDLE, or a soft reset. -/
theorem writeTarget_changes {s : State} {w : Word} {tgt : Target} {k : RegIdx}
    (hne : (s.writeTarget w tgt).regs.read k ≠ s.regs.read k) :
    (∃ i, tgt = .window k i ∧ s.engine = .idle
      ∧ (s.writeTarget w tgt).regs.read k = ⟨setMagWord (s.regs.read k).mag i w, false⟩)
    ∨ (tgt = .csr .ctrl ∧ w.getLsbD 1 = true ∧ s.writeTarget w tgt = s.resetAll) := by
  cases he : s.engine with
  | busy snap =>
    rcases writeTarget_busy w tgt he with ⟨-, hregs, -⟩ | hreset
    · exact absurd (by rw [hregs]) hne
    · exact .inr hreset
  | idle =>
    cases tgt with
    | window k' i =>
      left
      simp only [State.writeTarget, writeWindow_idle k' i w he] at hne ⊢
      by_cases hk : k = k'
      · subst hk
        exact ⟨i, rfl, trivial, read_write_same ..⟩
      · exact absurd (read_write_other _ _ hk) hne
    | csr c =>
      right
      cases c with
      | ctrl =>
        cases hs : w.getLsbD 1 with
        | true => exact ⟨rfl, rfl, writeCtrl_reset hs⟩
        | false =>
          simp only [State.writeTarget, writeCtrl_ie hs] at hne
          exact absurd rfl hne
      | cmd =>
        simp only [State.writeTarget, writeCmd_idle w he, accept_regs] at hne
        exact absurd rfl hne
      | _ => exact absurd rfl hne

/-- An offset that answers as a CSR is that CSR's (20_memory.md R46). -/
theorem offset_of_targetOf_csr {nwords off : Nat} {c : Csr} (h : targetOf nwords off = some (.csr c)) :
    off = c.offset := by
  rcases targetOf_some h with ⟨c', hc, ho⟩ | ⟨k, i, hc, -⟩ <;> cases hc
  exact ho

/-- An offset that answers as a window word is that word's, and the word is one of NWORDS (20_memory.md R49,
R50). -/
theorem offset_of_targetOf_window {nwords off i : Nat} {k : RegIdx}
    (h : targetOf nwords off = some (.window k i)) : i < nwords ∧ off = windowOffset k i := by
  rcases targetOf_some h with ⟨c, hc, -⟩ | ⟨k', i', hc, hi, -, ho⟩ <;> cases hc
  exact ⟨hi, ho⟩

/-- A reset is a reset whatever was answered. -/
theorem isReset_resetAll_response (s : State) (resp : Option Response) :
    ({ s.resetAll with response := resp } : State).IsReset :=
  IsReset.of_eq (isReset_resetAll s) rfl rfl rfl rfl rfl rfl rfl rfl rfl rfl

/-- Settles O54, by whose turn the step was. -/
theorem onlyThreeThingsWriteRegisters : Obligations.OnlyThreeThingsWriteRegisters := by
  intro s t k hs hne
  rcases step_cases hs with ⟨-, he⟩ | ⟨rest, -, he⟩ | ⟨rest, ha, rfl⟩ | ⟨a, onErr, rest, ha, hh⟩
  · exact .inr (.inl (engineStep_changes he hne))
  · exact .inr (.inl (engineStep_changes (s := { s with agenda := rest }) he hne))
  · exact .inr (.inr ⟨⟨.hardReset, rest, ha, trivial⟩, isReset_resetAll _⟩)
  · rcases hostStep_effect hh with ⟨resp, n, rfl⟩ | ⟨off, w, tgt, rfl, ht, rfl⟩
    · exact absurd rfl hne
    · rcases writeTarget_changes (s := { s with agenda := rest }) hne with
        ⟨i, rfl, hidle, hread⟩ | ⟨rfl, hsrst, hreset⟩
      · obtain ⟨hi, rfl⟩ := offset_of_targetOf_window ht
        exact .inl ⟨rest, i, w, hi, hidle, ⟨onErr, ha⟩, hread⟩
      · obtain rfl := offset_of_targetOf_csr ht
        rw [hreset]
        exact .inr (.inr ⟨⟨_, rest, ha, rfl, rfl, w, rfl, hsrst⟩, isReset_resetAll_response ..⟩)

end Sys2Proof.Proofs

/-! PROOF. The control and status registers as the host sees them (10_state.md R27 – R33). -/

namespace Sys2Proof.Proofs

open Sys2Proof Sys2Proof.Machine Sys2Proof.Laws

theorem ctrlWord_eq (s : State) : s.ctrlWord = if s.ie then 1 else 0 := by
  unfold State.ctrlWord
  cases s.ie <;> rfl

/-- STATUS is its five flags, BUSY lowest (10_state.md R31). -/
theorem statusWord_eq_bit (s : State) :
    s.statusWord = BitVec.ofNat 32
      (Nat.bit s.busy (Nat.bit s.done (Nat.bit s.err (Nat.bit s.cmdOvr (Nat.bit s.winOvr 0))))) := by
  unfold State.statusWord
  congr 1
  simp only [Nat.bit_val]
  omega

theorem statusWord_getLsbD (s : State) (j : Nat) :
    s.statusWord.getLsbD j = [s.busy, s.done, s.err, s.cmdOvr, s.winOvr].getD j false := by
  rw [statusWord_eq_bit, BitVec.getLsbD_ofNat]
  rcases j with _ | _ | _ | _ | _ | j <;> simp [Nat.testBit_bit_succ]

/-- Settles O34: each CSR but SIGN reads its word in either phase, and the words are those of the rules. -/
theorem csrReadsAreExact : Obligations.CsrReadsAreExact := by
  intro s rest
  have read (c : Csr) (hc : c ≠ .sign) (h : s.AtAccess c.offset .read rest) := step_readCsr c (.inl hc) h
  refine ⟨read .id (by decide), read .cfg (by decide), ?_, read .cmd (by decide), ?_, read .errcode (by decide)⟩
  · rw [← ctrlWord_eq]
    exact read .ctrl (by decide)
  · intro h
    have bit := statusWord_getLsbD s
    exact ⟨_, read .status (by decide) h, bit 0, bit 1, bit 2, bit 3, bit 4,
      fun j hj => (bit j).trans (List.getD_eq_default _ _ hj)⟩

theorem signWord_getLsbD (s : State) (j : Nat) :
    s.signWord.getLsbD j = (decide (j < 16) && (s.regs.get (Fin.ofNat NREGS j)).sign) := by
  rw [State.signWord, BitVec.getLsbD_ofNat, signBits_testBit]
  by_cases hj : j < 16
  · have h32 : j < 32 := by omega
    simp [hj, h32]
  · simp [hj]

/-- Settles O36: SIGN reads its word while IDLE, and that word is the signs bit by bit. -/
theorem signReadsTheSignBits : Obligations.SignReadsTheSignBits := by
  intro s rest h hidle
  refine ⟨_, step_readCsr .sign (.inr hidle) h, fun k => ?_, fun j hj => ?_⟩
  · have hk : Fin.ofNat NREGS k.val = k := Fin.ext (Nat.mod_eq_of_lt k.isLt)
    show s.signWord.getLsbD k.val = _
    rw [signWord_getLsbD, hk, decide_eq_true k.isLt, Bool.true_and]
    rfl
  · show s.signWord.getLsbD j = _
    rw [signWord_getLsbD, decide_eq_false (by omega), Bool.false_and]

theorem w1c_eq_true_iff (field one : Bool) : w1c field one = true ↔ field = true ∧ one = false := by
  simp [w1c]

/-- Settles O42: four write-1-to-clear bits and the rest of the state. -/
theorem statusWriteClearsWrittenOnes : Obligations.StatusWriteClearsWrittenOnes := by
  intro s rest w h
  exact ⟨_, step_writeCsr .status h, w1c_eq_true_iff .., w1c_eq_true_iff .., w1c_eq_true_iff ..,
    w1c_eq_true_iff .., rfl⟩

theorem step_writeCtrl_ie {s : State} {rest : List Turn} {w : Word} (h : s.AtAccess 0x008 (.write w) rest)
    (hs : w.getLsbD 1 = false) : step s = .next { s.answered rest .okWrite with ie := w.getLsbD 0 } := by
  rw [step_writeCsr .ctrl h, State.writeTarget, writeCtrl_ie hs]
  rfl

theorem step_writeCtrl_reset {s : State} {rest : List Turn} {w : Word} (h : s.AtAccess 0x008 (.write w) rest)
    (hs : w.getLsbD 1 = true) :
    step s = .next { ({ s with agenda := rest } : State).resetAll with response := some .okWrite } := by
  rw [step_writeCsr .ctrl h, State.writeTarget, writeCtrl_reset hs]

/-- Settles O43: IE alone, or a soft reset. -/
theorem ctrlWriteSetsIeOrResets : Obligations.CtrlWriteSetsIeOrResets := by
  intro s rest w h
  refine ⟨step_writeCtrl_ie h, fun hs => ⟨_, step_writeCtrl_reset h hs, isReset_resetAll_response .., rfl, rfl,
    rfl, fun k i hi => ?_⟩⟩
  rw [resetAll_regs, read_drawRegs]
  exact magWord_drawMag _ _ _ hi

end Sys2Proof.Proofs

/-! PROOF. The interrupt line (10_state.md R34; 60_exceptions.md R149) and the engine's turn
(10_state.md R21). -/

namespace Sys2Proof.Proofs

open Sys2Proof Sys2Proof.Machine Sys2Proof.Laws

theorem irq_eq_true_iff (s : State) : s.irq = true ↔ s.ie = true ∧ s.done = true := Bool.and_eq_true_iff

theorem irq_of_not_ie {s : State} (h : s.ie = false) : s.irq = false := by
  rw [State.irq, h, Bool.false_and]

theorem irq_of_not_done {s : State} (h : s.done = false) : s.irq = false := by
  rw [State.irq, h, Bool.and_false]

theorem irq_of_done {s : State} (h : s.done = true) : s.irq = s.ie := by
  rw [State.irq, h, Bool.and_true]

theorem irqRequest_of_irq {s : State} (h : s.irq = true) : s.irqRequest = some s.config.irqRoute :=
  if_pos h

theorem irqRequest_of_not_irq {s : State} (h : s.irq = false) : s.irqRequest = none :=
  if_neg (Bool.eq_false_iff.1 h)

/-- Success or error, a completion sets DONE and leaves IE (60_exceptions.md R142, R143). -/
theorem exec_irq {i : Instr} {s t : State} (h : exec i s = .next t) : t.irq = s.ie := by
  obtain ⟨snap, -, ⟨ws, -, rfl⟩ | ⟨e, -, rfl⟩⟩ := exec_next_cases h
  · exact irq_of_done rfl
  · exact irq_of_done rfl

/-- Settles O48: each cause that lowers the line clears IE or DONE. -/
theorem irqFollowsIeAndDone : Obligations.IrqFollowsIeAndDone := by
  refine ⟨fun s => ⟨irq_eq_true_iff s, irqRequest_of_irq, irqRequest_of_not_irq⟩, fun i s t => exec_irq, ?_⟩
  intro s t rest hs
  have next {u : State} (hu : step s = .next u) : t = u := Host.Outcome.next.inj (hs.symm.trans hu)
  refine ⟨fun w h h1 => ?_, fun w h hidle => ?_, fun w h hw => ?_, fun ha => ?_⟩
  · obtain rfl := next (step_writeCsr .status h)
    refine irq_of_not_done ?_
    show w1c s.done (w.getLsbD 1) = false
    rw [h1, w1c, Bool.not_true, Bool.and_false]
  · have hstep := step_writeCsr .cmd h
    rw [State.writeTarget, writeCmd_idle (s := { s with agenda := rest }) w hidle] at hstep
    obtain rfl := next hstep
    exact irq_of_not_done rfl
  · cases hsrst : w.getLsbD 1 with
    | true =>
      obtain rfl := next (step_writeCtrl_reset h hsrst)
      exact irq_of_not_ie rfl
    | false =>
      obtain rfl := next (step_writeCtrl_ie h hsrst)
      exact irq_of_not_ie (hw.resolve_right (by rw [hsrst]; decide))
  · obtain rfl := next (step_hardReset ha)
    exact irq_of_not_ie rfl

/-- Settles O8: the engine's turn, listed or not, is exec of the decoded command. -/
theorem stepRunsTheDecodedCommand : Obligations.StepRunsTheDecodedCommand := by
  intro s snap i hb hd
  refine ⟨fun ha => ?_, fun rest ha => ?_⟩
  · rw [step_nil ha, engineStep_ok hb hd]
  · rw [step_engine ha, engineStep_ok (s := { s with agenda := rest }) hb hd]

theorem engineStep_ne_refused (s : State) (r : Refusal) : engineStep s ≠ .refused r := by
  rcases engineStep_cases s with ⟨-, h⟩ | ⟨_, -, ⟨_, _, -, -, h⟩ | ⟨_, h⟩⟩ <;> rw [h] <;> exact nofun

/-- The host's turn faults or goes on. -/
theorem hostStep_ne_refused (a : Access) (onErr : OnBusErr) (s : State) (r : Refusal) :
    hostStep a onErr s ≠ .refused r := by
  unfold hostStep
  split
  · exact nofun
  · dsimp only
    split <;> exact nofun

theorem step_ne_refused (s : State) (r : Refusal) : step s ≠ .refused r := by
  unfold step
  split
  · exact engineStep_ne_refused _ r
  · exact engineStep_ne_refused _ r
  · exact nofun
  · exact hostStep_ne_refused _ _ _ r

/-- Settles O11: no turn of any agent is refused, for whatever reason. -/
theorem completionNeedsBusy : Obligations.CompletionNeedsBusy :=
  ⟨fun i _ => exec_idle i, fun s => step_ne_refused s _⟩

end Sys2Proof.Proofs

/-! PROOF. The register map (20_memory.md R46, R49, R50) and the accesses to a word of a window
(R49, R51, R53, R54, R57). -/

namespace Sys2Proof.Proofs

open Sys2Proof Sys2Proof.Machine Sys2Proof.Laws

theorem targetOf_eq_csr_iff {nwords off : Nat} {c : Csr} :
    targetOf nwords off = some (.csr c) ↔ off = c.offset :=
  ⟨offset_of_targetOf_csr, fun h => h ▸ targetOf_csr nwords c⟩

/-- A window of 0x400 bytes holds 256 words, so no word of a legal width spills into the next window. -/
theorem targetOf_eq_window_iff {nwords off i : Nat} {k : RegIdx} (hn : nwords ≤ 256) :
    targetOf nwords off = some (.window k i) ↔ i < nwords ∧ off = windowOffset k i :=
  ⟨offset_of_targetOf_window, fun ⟨hi, ho⟩ => ho ▸ targetOf_window k hi (hi.trans_le hn)⟩

/-- Settles O47: a CSR at its offset, a window word at its own, and no other offset answers. -/
theorem registerMapIsComplete : Obligations.RegisterMapIsComplete :=
  fun _ _ hn => ⟨fun _ => targetOf_eq_csr_iff, fun _ _ => targetOf_eq_window_iff hn⟩

theorem windowOffset_lt (k : RegIdx) {i : Nat} (h : i < 256) : windowOffset k i < 0x8000 := by
  have hk : k.val < 16 := k.isLt
  unfold windowOffset
  omega

theorem readTarget_window_idle {s : State} (k : RegIdx) (i : Nat) (h : s.engine = .idle) :
    s.readTarget (.window k i) = (s, magWord (s.regs.read k).mag i) := by
  simp [State.readTarget, busy_of_idle h]

/-- While BUSY a window word and SIGN are UNSPECIFIED: the read is a free draw (20_memory.md R54). -/
theorem readTarget_busy {s : State} {snap : Snapshot} {t : Target} (h : s.engine = .busy snap)
    (ht : t = .csr .sign ∨ ∃ k i, t = .window k i) : s.readTarget t = s.draw := by
  rcases ht with rfl | ⟨k, i, rfl⟩ <;> simp only [State.readTarget, busy_of_busy h, if_true]

theorem step_readBusy {s : State} {off : Nat} {rest : List Turn} {t : Target} {snap : Snapshot}
    (hb : s.engine = .busy snap) (h : s.AtAccess off .read rest) (hlt : off < 0x8000)
    (hmap : targetOf s.config.nwords off = some t) (ht : t = .csr .sign ∨ ∃ k i, t = .window k i) :
    step s = .next { s.answered rest (.okRead (Config.freeWord s.draws)) with draws := s.draws + 1 } := by
  rw [step_read h hlt hmap, readTarget_busy (s := { s with agenda := rest }) hb ht]
  rfl

theorem step_writeWindow {s : State} {rest : List Turn} {w : Word} (k : RegIdx) {i : Nat}
    (hi : i < s.config.nwords) (h256 : i < 256) (h : s.AtAccess (windowOffset k i) (.write w) rest) :
    step s = .next
      { ({ s with agenda := rest } : State).writeWindow k i w with response := some .okWrite } :=
  step_write h (windowOffset_lt k h256) (targetOf_window k hi h256)

/-- Settles O37: the word answered is that word of the magnitude, and `magWord` is it bit by bit. -/
theorem idleWindowReadIsExact : Obligations.IdleWindowReadIsExact := by
  intro s rest k i hi h256 h hidle
  refine ⟨magWord (s.regs.read k).mag i, ?_, fun j hj => magWord_getLsbD _ _ _ hj⟩
  rw [step_read h (windowOffset_lt k h256) (targetOf_window k hi h256),
    readTarget_window_idle (s := { s with agenda := rest }) k i hidle]
  rfl

/-- Settles O38: either read is the draw. -/
theorem busyReadsAreUnspecified : Obligations.BusyReadsAreUnspecified := by
  intro s rest snap hb
  refine ⟨fun k i hi h256 h => ?_, fun h => ?_⟩
  · exact step_readBusy hb h (windowOffset_lt k h256) (targetOf_window k hi h256) (.inr ⟨k, i, rfl⟩)
  · exact step_readBusy hb h (csrOffset_lt .sign) (targetOf_csr _ .sign) (.inl rfl)

/-- Settles O39: one register is written, and one word of its magnitude replaced. -/
theorem idleWindowWriteReplacesOneWord : Obligations.IdleWindowWriteReplacesOneWord := by
  intro s rest k i w hi h256 h hidle
  have hstep := step_writeWindow k hi h256 h
  rw [writeWindow_idle (s := { s with agenda := rest }) k i w hidle] at hstep
  refine ⟨_, hstep, ?_, fun j hj => ?_, ?_, fun k' hk => read_write_other _ _ hk, rfl⟩
  · rw [read_write_same, magWord_setMagWord_same]
  · rw [read_write_same, magWord_setMagWord_other _ _ hj]
  · rw [read_write_same]

/-- Settles O40: the write answers OK and leaves its mark in WIN_OVR alone. -/
theorem busyWindowWriteIsDropped : Obligations.BusyWindowWriteIsDropped := by
  intro s rest snap k i w hi h256 h hb
  rw [step_writeWindow k hi h256 h, writeWindow_busy (s := { s with agenda := rest }) k i w hb]
  rfl

end Sys2Proof.Proofs

/-! PROOF. A running command: the writes that start it, are dropped beside it or are ignored
(20_memory.md R52, R56), the placed word (log 11), and what can end it (R61; 70_reset_and_hazards.md
R172). -/

namespace Sys2Proof.Proofs

open Sys2Proof Sys2Proof.Machine Sys2Proof.Laws

/-- Settles O41: acceptance while IDLE, CMD_OVR while BUSY. -/
theorem cmdWriteIsAcceptedOrDropped : Obligations.CmdWriteIsAcceptedOrDropped := by
  intro s rest w h
  have hstep := step_writeCsr .cmd h
  refine ⟨fun hidle => ?_, fun snap hb => ?_⟩
  · rw [hstep, State.writeTarget, writeCmd_idle (s := { s with agenda := rest }) w hidle]
    rfl
  · rw [hstep, State.writeTarget, writeCmd_busy (s := { s with agenda := rest }) w hb]
    rfl

/-- Settles O44, register by register. -/
theorem readOnlyWritesAreIgnored : Obligations.ReadOnlyWritesAreIgnored := by
  rintro s rest w off (rfl | rfl | rfl | rfl) h
  · exact step_writeCsr .id h
  · exact step_writeCsr .cfg h
  · exact step_writeCsr .errcode h
  · exact step_writeCsr .sign h

theorem decode_pack {op m f : Nat} (rd ra rb rn : RegIdx) (len : Len) (hop : op < 64) (hm : m < 4)
    (hf : f < 2) :
    decode (pack op m rd ra rb rn len f)
      = decodeFields ⟨op, m, rd.val, ra.val, rb.val, rn.val, len.val, f, 0⟩ := by
  rw [decode, fieldsOf_pack rd ra rb rn len hop hm hf]

/-- A well-formed command's word decodes to it: its fields are read back, those its row does not use are
0, and R75 items 4 and 5 are `wellFormed` (30_encoding.md R71 – R75). -/
theorem decode_encode {i : Instr} (h : i.wellFormed = true) : decode (encode i) = .ok i := by
  cases i with
  | egcd | lcmfold | prod | phi | derivdf =>
    simpa [encode, decode_pack, method_code_lt, decodeFields, ifFits, Instr.wellFormed] using h
  | _ => simp [encode, decode_pack, decodeFields, ifZero]

/-- A word is its own 32 bits. -/
theorem withFetchWord_toNat (s : State) (w : Word) : s.withFetchWord 32 w.toNat = s.presentCommand w := by
  rw [State.withFetchWord, Nat.mod_eq_of_lt w.isLt, BitVec.ofNat_toNat, BitVec.setWidth_eq]

/-- Whatever turns are listed, the next one after the placing is the engine's (log 11). -/
theorem step_presentCommand (s : State) (w : Word) : step (s.presentCommand w) = engineStep (s.accept w) := by
  cases ha : s.agenda with
  | nil =>
    have hagenda : (s.presentCommand w).agenda = s.agenda := by rw [State.presentCommand, ha]
    have hsame : s.presentCommand w = s.accept w := by
      show { s.accept w with agenda := (s.presentCommand w).agenda } = s.accept w
      rw [hagenda]
      rfl
    rw [hsame]
    exact step_nil ha
  | cons turn rest =>
    have hagenda : (s.presentCommand w).agenda = .engine :: s.agenda := by rw [State.presentCommand, ha]
    rw [step_engine hagenda]
    rfl

/-- Settles O9: the engine runs what the placed word decodes to. -/
theorem placedWordRunsNext : Obligations.PlacedWordRunsNext := by
  intro s i hwf
  rw [withFetchWord_toNat, step_presentCommand]
  exact engineStep_ok (accept_engine s (encode i)) (decode_encode hwf)

/-- The engine's turn ends the command that runs, with success or an error (60_exceptions.md R142, R143). -/
theorem engineStep_ends {s t : State} {snap : Snapshot} (hb : s.engine = .busy snap)
    (h : engineStep s = .next t) : t.engine = .idle ∧ t.done = true := by
  rcases engineStep_cases s with ⟨hidle, -⟩ | ⟨-, -, ⟨i, ws, -, -, ht⟩ | ⟨e, ht⟩⟩
  · rw [hb] at hidle; cases hidle
  · obtain rfl := Host.Outcome.next.inj (h.symm.trans ht)
    exact ⟨rfl, rfl⟩
  · obtain rfl := Host.Outcome.next.inj (h.symm.trans ht)
    exact ⟨rfl, rfl⟩

/-- Settles O55, by whose turn the step was. -/
theorem runningCommandCannotBeChanged : Obligations.RunningCommandCannotBeChanged := by
  intro s t snap hb hs
  rcases step_cases hs with ⟨ha, he⟩ | ⟨rest, ha, he⟩ | ⟨rest, ha, rfl⟩ | ⟨a, onErr, rest, ha, hh⟩
  · exact .inr (.inl ⟨.inl ha, engineStep_ends hb he⟩)
  · exact .inr (.inl ⟨.inr ⟨rest, ha⟩, engineStep_ends (s := { s with agenda := rest }) hb he⟩)
  · exact .inr (.inr ⟨⟨.hardReset, rest, ha, trivial⟩, isReset_resetAll _⟩)
  · rcases hostStep_effect hh with ⟨resp, n, rfl⟩ | ⟨off, w, tgt, rfl, hmap, rfl⟩
    · exact .inl ⟨hb, rfl, rfl⟩
    · rcases writeTarget_busy (s := { s with agenda := rest }) w tgt hb with hkept | ⟨rfl, hsrst, hreset⟩
      · exact .inl hkept
      · obtain rfl := offset_of_targetOf_csr hmap
        rw [hreset]
        exact .inr (.inr ⟨⟨_, rest, ha, rfl, rfl, w, rfl, hsrst⟩, isReset_resetAll_response ..⟩)

end Sys2Proof.Proofs

/-! PROOF. Command words (30_encoding.md R71 – R75, R82): a word is a packed one or has a reserved bit
set, what the decoder answers by opcode, and the rows of the opcode table as fields of fixed value. -/

namespace Sys2Proof.Proofs

open Sys2Proof Sys2Proof.Machine Sys2Proof.Laws

theorem ifZero_eq_ok_iff {zero : Bool} {i j : Instr} : ifZero zero i = .ok j ↔ i = j ∧ zero = true := by
  cases zero <;> simp [ifZero]

theorem ifFits_eq_ok_iff {zero fits : Bool} {why : DecodeError} {i j : Instr} :
    ifFits zero fits why i = .ok j ↔ i = j ∧ zero = true ∧ fits = true := by
  cases zero <;> cases fits <;> simp [ifFits]

theorem ifZero_eq_error_iff {zero : Bool} {i : Instr} : (∃ e, ifZero zero i = .error e) ↔ zero = false := by
  cases zero <;> simp [ifZero]

theorem ifFits_eq_error_iff {zero fits : Bool} {why : DecodeError} {i : Instr} :
    (∃ e, ifFits zero fits why i = .error e) ↔ zero = false ∨ fits = false := by
  cases zero <;> cases fits <;> simp [ifFits]

/-- The fields of R71 by the bits they stand in. -/
theorem bits_eq_fields (w : Word) :
    bits w.toNat 5 0 = (fieldsOf w).op ∧ bits w.toNat 7 6 = (fieldsOf w).m
    ∧ bits w.toNat 11 8 = (fieldsOf w).rd ∧ bits w.toNat 15 12 = (fieldsOf w).ra
    ∧ bits w.toNat 19 16 = (fieldsOf w).rb ∧ bits w.toNat 23 20 = (fieldsOf w).rn
    ∧ bits w.toNat 28 24 = (fieldsOf w).len ∧ bits w.toNat 29 29 = (fieldsOf w).f
    ∧ bits w.toNat 31 30 = (fieldsOf w).top := by
  simp only [fieldsOf, and_self]

theorem bits_lt (v hi lo : Nat) : bits v hi lo < 2 ^ (hi + 1 - lo) := Nat.mod_lt _ (by positivity)

theorem exists_method_code_eq {n : Nat} (h : n < 4) : ∃ m : Method, m.code = n :=
  ⟨methodOf n, by interval_cases n <;> rfl⟩

/-- The fields leave no bit of a word out. -/
theorem fieldsOf_injective {w w' : Word} (h : fieldsOf w = fieldsOf w') : w = w' := by
  apply BitVec.eq_of_toNat_eq
  rw [toNat_eq_fields w, toNat_eq_fields w', h]

/-- A word whose reserved bits are 0 is packed from its fields. -/
theorem exists_eq_pack {w : Word} (htop : (fieldsOf w).top = 0) :
    ∃ (op f : Nat) (m : Method) (rd ra rb rn : RegIdx) (len : Len),
      op < 64 ∧ f < 2 ∧ w = pack op m.code rd ra rb rn len f := by
  have hop := bits_lt w.toNat 5 0
  have hf := bits_lt w.toNat 29 29
  obtain ⟨m, hm⟩ := exists_method_code_eq (bits_lt w.toNat 7 6)
  refine ⟨_, _, m, ⟨_, bits_lt w.toNat 11 8⟩, ⟨_, bits_lt w.toNat 15 12⟩, ⟨_, bits_lt w.toNat 19 16⟩,
    ⟨_, bits_lt w.toNat 23 20⟩, ⟨_, bits_lt w.toNat 28 24⟩, hop, hf, fieldsOf_injective ?_⟩
  rw [fieldsOf_pack _ _ _ _ _ hop (method_code_lt m) hf, hm, fieldsOf,
    show bits w.toNat 31 30 = 0 from htop]

/-- The words R75 items 1 and 2 name, and all others. -/
theorem reserved_or_pack (w : Word) :
    ((fieldsOf w).top ≠ 0 ∨ 12 ≤ (fieldsOf w).op)
    ∨ ∃ (op f : Nat) (m : Method) (rd ra rb rn : RegIdx) (len : Len),
        op < 12 ∧ f < 2 ∧ w = pack op m.code rd ra rb rn len f
          ∧ fieldsOf w = ⟨op, m.code, rd.val, ra.val, rb.val, rn.val, len.val, f, 0⟩ := by
  by_cases htop : (fieldsOf w).top = 0
  · obtain ⟨op, f, m, rd, ra, rb, rn, len, hop, hf, rfl⟩ := exists_eq_pack htop
    have hfields := fieldsOf_pack rd ra rb rn len hop (method_code_lt m) hf
    rcases Nat.lt_or_ge op 12 with h12 | h12
    · exact .inr ⟨op, f, m, rd, ra, rb, rn, len, h12, hf, rfl, hfields⟩
    · exact .inl (.inr (by rw [hfields]; exact h12))
  · exact .inl (.inl htop)

/-- A reserved bit or a reserved opcode is refused whatever the other fields hold. -/
theorem decode_reserved {w : Word} (h : (fieldsOf w).top ≠ 0 ∨ 12 ≤ (fieldsOf w).op) :
    ∃ e, decode w = .error e := by
  unfold decode decodeFields
  dsimp only
  split
  · exact ⟨_, rfl⟩
  · next htop =>
    have hop := h.resolve_left htop
    split
    case h_13 => exact ⟨_, rfl⟩
    all_goals omega

/-- By opcode and form bit: a word that decodes has the command's fields, and 0 wherever the command has
none (30_encoding.md R73, R74). -/
theorem encode_of_decode {w : Word} {i : Instr} (h : decode w = .ok i) :
    i.wellFormed = true ∧ encode i = w := by
  rcases reserved_or_pack w with hres | ⟨op, f, m, rd, ra, rb, rn, len, hop, hf, rfl, hfields⟩
  · obtain ⟨e, he⟩ := decode_reserved hres
    rw [he] at h
    cases h
  · rw [decode, hfields] at h
    clear hfields
    revert i
    interval_cases f <;> interval_cases op <;>
      simp +contextual [decodeFields, ifZero_eq_ok_iff, ifFits_eq_ok_iff, encode, Instr.wellFormed]

/-- Settles O1: the fields of the command's word are read back. -/
theorem decodeOfEncodeIsTheCommand : Obligations.DecodeOfEncodeIsTheCommand := fun _ => decode_encode

/-- Settles O2: the fields a row leaves unused are 0 in a word that decodes. -/
theorem decodedWordIsTheEncoding : Obligations.DecodedWordIsTheEncoding := fun _ _ => encode_of_decode

/-- By opcode and form bit, the checks the decoder makes are the items of R75. -/
theorem decode_eq_error_iff (w : Word) : (∃ e, decode w = .error e) ↔ IllFormed w := by
  rcases reserved_or_pack w with hres | ⟨op, f, m, rd, ra, rb, rn, len, hop, hf, -, hfields⟩
  · exact iff_of_true (decode_reserved hres) (hres.imp_right .inl)
  · rw [IllFormed, decode]
    simp only [bits_eq_fields, hfields]
    interval_cases f <;> interval_cases op <;>
      simp [decodeFields, ifZero_eq_error_iff, ifFits_eq_error_iff, rangeFits, imp_iff_not_or]

theorem engineStep_illFormed {w : Word} (hw : IllFormed w) {s : State} {regs : RegFile}
    (hb : s.engine = .busy ⟨w, regs⟩) : engineStep s = .next (s.completeErr .illegalCommand) := by
  obtain ⟨e, he⟩ := (decode_eq_error_iff w).2 hw
  exact engineStep_error hb he

/-- Settles O3: the write is accepted as any other, and the engine's turn finds no command. -/
theorem illFormedWordsRaiseIllegalCommand : Obligations.IllFormedWordsRaiseIllegalCommand := by
  intro w
  refine ⟨decode_eq_error_iff w, fun _ s rest h hidle => ?_, fun hw s regs hb ha => ?_⟩
  · exact ⟨_, (cmdWriteIsAcceptedOrDropped s rest w h).1 hidle, rfl, rfl⟩
  · rw [step_nil ha]
    exact ⟨_, engineStep_illFormed hw hb, failedWith_completeErr s _, rfl⟩

/-- The fields, as (high bit, low bit, value), that a row of the opcode table fixes: the opcode and the
must-be-zero fields of 30_encoding.md R73, R74, the reserved bits first. -/
def fixedFields (o : Opcode) : List (Nat × Nat × Nat) :=
  (31, 30, 0) ::
    match o with
    | .nop => [(29, 29, 0), (28, 24, 0), (23, 20, 0), (19, 16, 0), (15, 12, 0), (11, 8, 0), (7, 6, 0),
        (5, 0, 0x00)]
    | .mov => [(29, 29, 0), (28, 24, 0), (23, 20, 0), (19, 16, 0), (7, 6, 0), (5, 0, 0x01)]
    | .egcd => [(29, 29, 0), (28, 24, 0), (23, 20, 0), (7, 6, 0), (5, 0, 0x02)]
    | .modinv => [(29, 29, 0), (28, 24, 0), (23, 20, 0), (7, 6, 0), (5, 0, 0x03)]
    | .lcm => [(29, 29, 0), (28, 24, 0), (23, 20, 0), (7, 6, 0), (5, 0, 0x04)]
    | .lcmfold => [(29, 29, 0), (23, 20, 0), (19, 16, 0), (7, 6, 0), (5, 0, 0x05)]
    | .prod => [(29, 29, 0), (23, 20, 0), (19, 16, 0), (7, 6, 0), (5, 0, 0x06)]
    | .phi => [(29, 29, 0), (23, 20, 0), (19, 16, 0), (5, 0, 0x07)]
    | .derivd => [(29, 29, 0), (28, 24, 0), (23, 20, 0), (7, 6, 0), (5, 0, 0x08)]
    | .derivdf => [(29, 29, 1), (23, 20, 0), (5, 0, 0x08)]
    | .modexp => [(29, 29, 0), (28, 24, 0), (7, 6, 0), (5, 0, 0x09)]
    | .modmul => [(29, 29, 0), (28, 24, 0), (7, 6, 0), (5, 0, 0x0A)]
    | .montmul => [(29, 29, 0), (28, 24, 0), (7, 6, 0), (5, 0, 0x0B)]

theorem coversMask_fixedFields :
    ∀ r ∈ opcodeTable, coversMask (fixedFields r.opcode) r.mask r.pattern = true := by decide

/-- A row's masked compare reads the fields the row fixes. -/
theorem and_mask_eq_pattern_iff {r : OpcodeRow} (hr : r ∈ opcodeTable) (w : Word) :
    w &&& r.mask = r.pattern ↔ ∀ x ∈ fixedFields r.opcode, bits w.toNat x.1 x.2.1 = x.2.2 :=
  and_mask_eq_iff (coversMask_fixedFields r hr) w

theorem exists_row_of_opcode (o : Opcode) : ∃ r ∈ opcodeTable, r.opcode = o := by
  cases o <;> decide

theorem row_eq_of_opcode_eq :
    ∀ r ∈ opcodeTable, ∀ r' ∈ opcodeTable, r.opcode = r'.opcode → r = r' := by decide

theorem fits_encode {r : OpcodeRow} {i : Instr} (hr : r ∈ opcodeTable) (hwf : i.wellFormed = true)
    (ho : i.opcode = r.opcode) : r.Fits (encode i) := by
  rw [OpcodeRow.Fits, and_mask_eq_pattern_iff hr, ← ho]
  revert hwf
  cases i <;>
    simp [fixedFields, bits_eq_fields, encode, fieldsOf_pack, method_code_lt, Instr.opcode,
      Instr.wellFormed, rangeFits]

/-- The fields a row fixes send the decoder to the row's arm, and past its checks. -/
theorem decode_of_fits {r : OpcodeRow} {w : Word} (hr : r ∈ opcodeTable) (h : r.Fits w) :
    ∃ i, decode w = .ok i ∧ i.opcode = r.opcode := by
  rw [OpcodeRow.Fits, and_mask_eq_pattern_iff hr] at h
  obtain ⟨op, f, m, rd, ra, rb, rn, len, hop, hf, rfl⟩ := exists_eq_pack (h.1 _ List.mem_cons_self)
  have hfields := fieldsOf_pack rd ra rb rn len hop (method_code_lt m) hf
  rw [decode, hfields]
  generalize r.opcode = o at h
  cases o <;>
    simp only [fixedFields, List.forall_mem_cons, bits_eq_fields, hfields] at h <;>
    simp [decodeFields, ifZero, ifFits, rangeFits, Instr.opcode, h]

/-- A row holds the words of its own commands and no others. -/
theorem fits_iff {r : OpcodeRow} (hr : r ∈ opcodeTable) (w : Word) :
    r.Fits w ↔ ∃ i, decode w = .ok i ∧ i.opcode = r.opcode := by
  refine ⟨decode_of_fits hr, fun ⟨i, hd, ho⟩ => ?_⟩
  obtain ⟨hwf, rfl⟩ := encode_of_decode hd
  exact fits_encode hr hwf ho

/-- Settles O4: a word that decodes fits the row of its command, any other fits none. -/
theorem everyWordIsOneTableRowOrIllegal : Obligations.EveryWordIsOneTableRowOrIllegal := by
  intro w
  cases hd : decode w with
  | ok i =>
    have hwell : ¬ IllFormed w := fun hill => by
      obtain ⟨e, he⟩ := (decode_eq_error_iff w).2 hill
      cases hd.symm.trans he
    have opcode_of_fits {r : OpcodeRow} (hr : r ∈ opcodeTable) (h : r.Fits w) : i.opcode = r.opcode := by
      obtain ⟨j, hj, ho⟩ := (fits_iff hr w).1 h
      obtain rfl := Except.ok.inj (hd.symm.trans hj)
      exact ho
    obtain ⟨r, hr, ho⟩ := exists_row_of_opcode i.opcode
    refine ⟨fun _ => ⟨r, ⟨hr, (fits_iff hr w).2 ⟨i, hd, ho.symm⟩⟩, fun r' ⟨hr', h'⟩ => ?_⟩,
      fun hill => absurd hill hwell, ?_⟩
    · exact row_eq_of_opcode_eq r' hr' r hr ((opcode_of_fits hr' h').symm.trans ho.symm)
    · rintro j r' hj hr' h'
      obtain rfl := Except.ok.inj hj
      exact opcode_of_fits hr' h'
  | error e =>
    have hill : IllFormed w := (decode_eq_error_iff w).1 ⟨e, hd⟩
    refine ⟨fun hwell => absurd hill hwell, fun _ => ⟨fun r hr h => ?_, fun s regs hb => ?_⟩, fun i r hi => ?_⟩
    · obtain ⟨i, hi, -⟩ := (fits_iff hr w).1 h
      cases hd.symm.trans hi
    · exact ⟨_, engineStep_illFormed hill hb, failedWith_completeErr s _⟩
    · cases hi

/-- Settles O5: each word is closed, so the decoder runs on it. -/
theorem sampleWordsDecode : Obligations.SampleWordsDecode := by
  unfold Obligations.SampleWordsDecode
  decide

end Sys2Proof.Proofs

/-! PROOF. Factor ranges (30_encoding.md R77) and the assembler's lines (R80, R81). -/

namespace Sys2Proof.Proofs

open Sys2Proof Sys2Proof.Machine Sys2Proof.Laws

/-- No index of a range that fits reaches 16, where register numbers would wrap. -/
theorem rangeRegs_getElem_val {start : RegIdx} {len : Len} (hfits : start.val + len.val ≤ 16) {j : Nat}
    (hj : j < (rangeRegs start len).length) : ((rangeRegs start len)[j]).val = start.val + j := by
  have hlen : j < len.val := by rwa [length_rangeRegs] at hj
  simp only [rangeRegs, List.getElem_map, List.getElem_range]
  exact Nat.mod_eq_of_lt (show start.val + j < 16 by omega)

/-- Settles O6. -/
theorem factorRangeIsConsecutive : Obligations.FactorRangeIsConsecutive :=
  fun start len hfits => ⟨length_rangeRegs start len, fun _ => rangeRegs_getElem_val hfits⟩

theorem assemble_command (i : Instr) (h : lenSpellable i = true) : assemble (.command i) = some (encode i) :=
  if_pos h

theorem assemble_command_refused (i : Instr) (h : lenSpellable i = false) : assemble (.command i) = none := by
  rw [assemble, h]
  rfl

/-- Settles O7: a pseudo-instruction is its command, and R80 refuses by the length operand alone. -/
theorem pseudoInstructionsAreOneCommand : Obligations.PseudoInstructionsAreOneCommand := by
  refine ⟨fun _ _ _ => rfl, fun _ _ _ => rfl, fun _ _ _ _ => rfl, fun _ _ _ _ => rfl,
    fun _ _ _ _ => rfl, fun _ _ _ _ => rfl, fun m rd ra rb len => ⟨fun h => ?_, fun h => ?_⟩⟩
  · have hlen : decide (len.val ≤ 16) = true := decide_eq_true h
    exact ⟨assemble_command (.lcmfold rd ra len) hlen, assemble_command (.prod rd ra len) hlen,
      assemble_command (.phi m rd ra len) hlen, assemble_command (.derivdf m rd ra rb len) hlen,
      assemble_command (.prod rd ra len) hlen, assemble_command (.derivdf .euler rd ra rb len) hlen⟩
  · have hlen : decide (len.val ≤ 16) = false := decide_eq_false (by omega)
    exact ⟨assemble_command_refused (.lcmfold rd ra len) hlen, assemble_command_refused (.prod rd ra len) hlen,
      assemble_command_refused (.phi m rd ra len) hlen, assemble_command_refused (.derivdf m rd ra rb len) hlen,
      assemble_command_refused (.prod rd ra len) hlen,
      assemble_command_refused (.derivdf .euler rd ra rb len) hlen⟩

end Sys2Proof.Proofs

/-! PROOF. The arithmetic of the kernel commands: egcd as the only solution of its recurrence, the loop
that computes it (40_kernel.md R100) and the bound on its coefficients (R104). -/

namespace Sys2Proof.Proofs

open Sys2Proof Sys2Proof.Machine Sys2Proof.Laws

/-- Run with fuel enough, the loop answers the coefficients of egcd(r1, r0) carried along the two
columns: every row of the loop is a combination of its first two. -/
theorem egcdIter_eq {fuel r0 r1 : Nat} (s0 s1 t0 t1 : Int) (h : r1 ≤ fuel) :
    egcdIter fuel r0 r1 s0 s1 t0 t1
      = ((egcd r1 r0).1, t0 * (egcd r1 r0).2.2 + t1 * (egcd r1 r0).2.1,
          s0 * (egcd r1 r0).2.2 + s1 * (egcd r1 r0).2.1) := by
  induction fuel generalizing r0 r1 s0 s1 t0 t1 with
  | zero =>
    obtain rfl := Nat.le_zero.1 h
    simp [egcdIter]
  | succ fuel ih =>
    by_cases hr : r1 = 0
    · subst hr
      simp [egcdIter]
    · have hlt : r0 % r1 < r1 := Nat.mod_lt _ (Nat.pos_of_ne_zero hr)
      rw [egcdIter, if_neg hr, ih _ _ _ _ (by omega), egcd_rec r0 hr]
      simp only [Prod.mk.injEq, true_and]
      constructor <;> ring

/-- The loop of R100 computes the recurrence. -/
theorem egcdLoop_eq_egcd (a b : Nat) : egcdLoop a b = egcd a b := by
  rw [egcdLoop, egcdIter_eq _ _ _ _ le_rfl]
  simp

/-- Settles O27: uniqueness by induction along the recurrence. -/
theorem egcdIsTheRecurrence : Obligations.EgcdIsTheRecurrence := by
  refine ⟨fun f => ⟨fun hf => ?_, ?_⟩, fun a b => ⟨egcd_gcd a b, ?_, egcdLoop_eq_egcd a b⟩⟩
  · funext a b
    induction a, b using egcd_induction with
    | zero b => rw [hf, if_pos rfl, egcd_zero]
    | step a b h ih => rw [hf, if_neg h, ih, egcd_rec b h]
  · rintro rfl a b
    split
    · next h => rw [h, egcd_zero]
    · next h => exact egcd_rec b h
  · rw [egcd_gcd]
    exact egcd_bezout a b

/-- R104. In the step |u| ≤ |u'| + (b div a)·|v'| ≤ b mod a + (b div a)·a = b; only where a divides b
does the bound 1 on u' exceed b mod a, and there v' = 0. -/
theorem egcd_natAbs_le (a b : Nat) :
    (egcd a b).2.1.natAbs ≤ max b 1 ∧ (egcd a b).2.2.natAbs ≤ max a 1 := by
  induction a, b using egcd_induction with
  | zero b => simp
  | step a b ha ih =>
    obtain ⟨hv, hu⟩ := ih
    rw [egcd_rec b ha]
    refine ⟨?_, hv⟩
    by_cases hr : b % a = 0
    · simp [hr]
    · calc ((egcd (b % a) a).2.2 - ((b / a : Nat) : Int) * (egcd (b % a) a).2.1).natAbs
          ≤ (egcd (b % a) a).2.2.natAbs + (b / a) * (egcd (b % a) a).2.1.natAbs :=
            (Int.natAbs_sub_le _ _).trans_eq (by rw [Int.natAbs_mul, Int.natAbs_natCast])
        _ ≤ b % a + (b / a) * a := by
            have hu' : (egcd (b % a) a).2.2.natAbs ≤ b % a := by omega
            have hv' : (egcd (b % a) a).2.1.natAbs ≤ a := by omega
            exact Nat.add_le_add hu' (Nat.mul_le_mul_left _ hv')
        _ = b := by rw [Nat.mul_comm, Nat.mod_add_div]
        _ ≤ max b 1 := le_max_left b 1

/-- Coefficients of operands of n bits have n bits, for n > 0: the coefficient 1 needs one. -/
theorem egcd_natAbs_lt {a b n : Nat} (hn : n ≠ 0) (ha : a < 2 ^ n) (hb : b < 2 ^ n) :
    (egcd a b).2.1.natAbs < 2 ^ n ∧ (egcd a b).2.2.natAbs < 2 ^ n := by
  have h1 : 1 < 2 ^ n := Nat.one_lt_two_pow hn
  obtain ⟨hu, hv⟩ := egcd_natAbs_le a b
  exact ⟨hu.trans_lt (max_lt hb h1), hv.trans_lt (max_lt ha h1)⟩

end Sys2Proof.Proofs

/-! PROOF. Commands of a destination and two operands: their word (30_encoding.md R71, R73), the sign
check (60_exceptions.md R144), and EGCD, MODINV and LCM (40_kernel.md R101 – R104). -/

namespace Sys2Proof.Proofs

open Sys2Proof Sys2Proof.Machine Sys2Proof.Laws

/-- The word of a command whose fields are rd, ra and rb. -/
theorem pack_twoOperands_toNat {op : Nat} (hop : op < 64) (rd ra rb : RegIdx) :
    (pack op 0 rd ra rb 0 0 0).toNat = op + 2 ^ 8 * rd.val + 2 ^ 12 * ra.val + 2 ^ 16 * rb.val := by
  rw [pack_toNat rd ra rb 0 0 hop (by decide) (by decide)]
  simp [Nat.mul_comm]

theorem fails_signed_two {i : Instr} {s : State} {snap : Snapshot} {ra rb : RegIdx}
    (hb : s.engine = .busy snap) (hw : i.wellFormed = true) (hn : numericRegs i = [ra, rb])
    (hs : (snap.regs.read ra).sign = true ∨ (snap.regs.read rb).sign = true) : Fails i s .signedOperand :=
  fails_signed hb hw (by rw [readsSigned_two hn, Bool.or_eq_true]; exact hs)

theorem readsSigned_two_eq_false {regs : RegFile} {i : Instr} {ra rb : RegIdx} (hn : numericRegs i = [ra, rb])
    (ha : (regs.read ra).sign = false) (hb : (regs.read rb).sign = false) : readsSigned regs i = false := by
  rw [readsSigned_two hn, ha, hb, Bool.or_false]

/-- An error is one of the common checks' or the own rule's. -/
theorem cmdResult_error {i : Instr} {own : RegFile → CmdResult} {regs : RegFile} {e : ErrCode}
    (h : cmdResult i own regs = .error e) : e = .illegalCommand ∨ e = .signedOperand ∨ own regs = .error e := by
  unfold cmdResult commonChecks at h
  split at h
  · next hc =>
    obtain rfl := Except.error.inj h
    split at hc
    · exact .inl (Option.some.inj hc).symm
    · split at hc
      · exact .inr (.inl (Option.some.inj hc).symm)
      · cases hc
  · exact .inr (.inr h)

/-- A command that fails does so by a common check or by its own rule. -/
theorem fails_cause {i : Instr} {s : State} {snap : Snapshot} {e : ErrCode} (hb : s.engine = .busy snap)
    (h : Fails i s e) :
    e = .illegalCommand ∨ e = .signedOperand ∨ ownRule s.config.nbits i snap.regs = .error e := by
  obtain ⟨t, ht, hf⟩ := h
  obtain ⟨snap', hb', ⟨ws, -, rfl⟩ | ⟨e', he, rfl⟩⟩ := exec_next_cases ht
  · cases hf.code
  · obtain rfl := Engine.busy.inj (hb.symm.trans hb')
    obtain rfl := Option.some.inj hf.code
    exact cmdResult_error he

/-- Three neighbouring registers are three, wherever the first one stands: 3 ≤ 16. -/
theorem tripleRegs_distinct (rd : RegIdx) : rd ≠ rd + 1 ∧ rd ≠ rd + 2 ∧ rd + 1 ≠ rd + 2 := by
  revert rd
  decide

theorem egcdOwn_overflow {nbits g : Nat} {u v : Int} (rd : RegIdx) {ra rb : RegIdx} {regs : RegFile}
    (h : egcd (regs.num ra) (regs.num rb) = (g, u, v))
    (hbig : 2 ^ nbits ≤ u.natAbs ∨ 2 ^ nbits ≤ v.natAbs) :
    egcdOwn nbits rd ra rb regs = .error .overflow := by
  simp only [egcdOwn, h]
  exact if_pos (by simpa only [Bool.or_eq_true, overflows_eq_true] using hbig)

theorem egcdOwn_ok {nbits g : Nat} {u v : Int} (rd : RegIdx) {ra rb : RegIdx} {regs : RegFile}
    (h : egcd (regs.num ra) (regs.num rb) = (g, u, v)) (hu : u.natAbs < 2 ^ nbits) (hv : v.natAbs < 2 ^ nbits) :
    egcdOwn nbits rd ra rb regs
      = .ok [(rd, OpReg.ofNat g), (rd + 1, OpReg.ofInt u), (rd + 2, OpReg.ofInt v)] := by
  simp only [egcdOwn, h, overflows_eq_false.2 hu, overflows_eq_false.2 hv]
  rfl

/-- What the three deferred writes of EGCD leave in the register file. -/
theorem read_applyWrites_triple {r t : RegFile} {rd : RegIdx} {x y z : OpReg}
    (ht : t = applyWrites r [(rd, x), (rd + 1, y), (rd + 2, z)]) :
    t.read rd = x ∧ t.read (rd + 1) = y ∧ t.read (rd + 2) = z
    ∧ ∀ k, k ≠ rd → k ≠ rd + 1 → k ≠ rd + 2 → t.read k = r.read k := by
  obtain ⟨h01, h02, h12⟩ := tripleRegs_distinct rd
  simp only [applyWrites_cons, applyWrites_nil] at ht
  subst ht
  refine ⟨?_, ?_, read_write_same _ _ _, fun k h0 h1 h2 => ?_⟩
  · rw [read_write_other _ _ h02, read_write_other _ _ h01, read_write_same]
  · rw [read_write_other _ _ h12, read_write_same]
  · rw [read_write_other _ _ h2, read_write_other _ _ h1, read_write_other _ _ h0]

/-- Settles O15: the checks in order, then the three writes, which name three registers. -/
theorem egcdWritesTheTriple : Obligations.EgcdWritesTheTriple := by
  intro rd ra rb
  refine ⟨pack_twoOperands_toNat (by decide) rd ra rb, fun s cw regs hb => ⟨fun hrd => ?_, fun hrd hs => ?_, ?_⟩⟩
  · exact fails_illegal hb (decide_eq_false (by omega))
  · exact fails_signed_two hb (decide_eq_true hrd) rfl hs
  · intro hrd ha hb' g u v hg
    have hw : (Instr.egcd rd ra rb).wellFormed = true := decide_eq_true hrd
    have hs : readsSigned regs (.egcd rd ra rb) = false := readsSigned_two_eq_false rfl ha hb'
    refine ⟨fun hbig => fails_own hb hw hs (egcdOwn_overflow rd hg hbig), fun hu hv => ?_⟩
    exact ⟨_, exec_own_ok hb hw hs (egcdOwn_ok rd hg hu hv), completed_completeOk s _,
      read_applyWrites_triple rfl⟩

/-- Settles O28: the bound, and with it an own rule of EGCD that raises nothing. -/
theorem egcdCoefficientsAreBounded : Obligations.EgcdCoefficientsAreBounded := by
  refine ⟨egcd_natAbs_le, fun s snap rd ra rb hwf hb hfit hfail => ?_⟩
  have hn : s.config.nbits ≠ 0 := by
    have := hwf.1
    unfold Config.nbits
    omega
  obtain ⟨hu, hv⟩ := egcd_natAbs_lt hn (hfit ra) (hfit rb)
  rcases fails_cause hb hfail with h | h | h
  · cases h
  · cases h
  · cases h.symm.trans (egcdOwn_ok rd rfl hu hv)

theorem modinvOwn_notCoprime (rd : RegIdx) {ra rb : RegIdx} {regs : RegFile}
    (h : Nat.gcd (regs.num ra) (regs.num rb) ≠ 1) : modinvOwn rd ra rb regs = .error .notCoprime := by
  rw [modinvOwn, inverseMod_notCoprime h]

theorem modinvOwn_zeroModulus (rd : RegIdx) {ra rb : RegIdx} {regs : RegFile}
    (h : Nat.gcd (regs.num ra) (regs.num rb) = 1) (hm : regs.num rb = 0) :
    modinvOwn rd ra rb regs = .error .zeroModulus := by
  rw [modinvOwn, inverseMod_coprime h]
  exact if_pos hm

theorem modinvOwn_ok (rd : RegIdx) {ra rb : RegIdx} {regs : RegFile}
    (h : Nat.gcd (regs.num ra) (regs.num rb) = 1) (hm : regs.num rb ≠ 0) :
    modinvOwn rd ra rb regs
      = .ok [(rd, OpReg.ofNat (emod (egcd (regs.num ra) (regs.num rb)).2.1 (regs.num rb)))] := by
  rw [modinvOwn, inverseMod_coprime h]
  exact if_neg hm

/-- Settles O16: the own rule raises NotCoprime before it looks at the modulus, and answers the residue
of Bézout's coefficient. -/
theorem modinvWritesTheInverse : Obligations.ModinvWritesTheInverse := by
  intro rd ra rb
  refine ⟨pack_twoOperands_toNat (by decide) rd ra rb,
    fun s cw regs hb => ⟨fails_signed_two hb rfl rfl, fun ha hb' => ?_⟩⟩
  have hs : readsSigned regs (.modinv rd ra rb) = false := readsSigned_two_eq_false rfl ha hb'
  refine ⟨fun hg => ?_, fun hg hm => ?_, fun hg hm => ⟨_, isInverse_emod hm hg, ?_⟩⟩
  · exact fails_own hb rfl hs (modinvOwn_notCoprime rd hg)
  · exact fails_own hb rfl hs (modinvOwn_zeroModulus rd hg hm)
  · exact writesOne_own hb rfl hs (modinvOwn_ok rd hg hm)

theorem lcmOwn_undefined (nbits : Nat) (rd : RegIdx) {ra rb : RegIdx} {regs : RegFile}
    (ha : regs.num ra = 0) (hb : regs.num rb = 0) : lcmOwn nbits rd ra rb regs = .error .lcmUndefined := by
  rw [lcmOwn, ha, hb, lcmChecked_zero]

theorem lcmOwn_overflow {nbits : Nat} (rd : RegIdx) {ra rb : RegIdx} {regs : RegFile}
    (h : ¬(regs.num ra = 0 ∧ regs.num rb = 0)) (hbig : 2 ^ nbits ≤ Nat.lcm (regs.num ra) (regs.num rb)) :
    lcmOwn nbits rd ra rb regs = .error .overflow := by
  rw [lcmOwn, lcmChecked_eq h]
  exact if_pos (overflows_eq_true.2 hbig)

theorem lcmOwn_ok {nbits : Nat} (rd : RegIdx) {ra rb : RegIdx} {regs : RegFile}
    (h : ¬(regs.num ra = 0 ∧ regs.num rb = 0)) (hfit : Nat.lcm (regs.num ra) (regs.num rb) < 2 ^ nbits) :
    lcmOwn nbits rd ra rb regs = .ok [(rd, OpReg.ofNat (Nat.lcm (regs.num ra) (regs.num rb)))] := by
  rw [lcmOwn, lcmChecked_eq h]
  exact if_neg (by rw [overflows_eq_false.2 hfit]; exact Bool.false_ne_true)

/-- Settles O17: (a·b) div gcd(a, b) is Mathlib's lcm by definition. -/
theorem lcmWritesTheLeastCommonMultiple : Obligations.LcmWritesTheLeastCommonMultiple := by
  intro rd ra rb
  refine ⟨pack_twoOperands_toNat (by decide) rd ra rb,
    fun s cw regs hb => ⟨fails_signed_two hb rfl rfl, fun ha hb' => ?_⟩⟩
  have hs : readsSigned regs (.lcm rd ra rb) = false := readsSigned_two_eq_false rfl ha hb'
  rintro a b rfl rfl
  refine ⟨fun ⟨ha0, hb0⟩ => ?_, fun h0 hbig => ?_, fun h0 hfit => ?_⟩
  · exact fails_own hb rfl hs (lcmOwn_undefined _ rd ha0 hb0)
  · exact fails_own hb rfl hs (lcmOwn_overflow rd h0 hbig)
  · exact writesOne_own hb rfl hs (lcmOwn_ok rd h0 hfit)

end Sys2Proof.Proofs

/-! PROOF. The folds (41_fold_derivation.md R110), the product and the totient of a validated list of factors
(R111, R112, R114). -/

namespace Sys2Proof.Proofs

open Sys2Proof Sys2Proof.Machine Sys2Proof.Laws

/-- What a fold has still to do after a prefix, it does from the value the prefix ends at. -/
theorem foldChecked_append_of_ok {nbits : Nat} {op : Nat → Nat → Except ErrCode Nat} {x acc : Nat}
    {before : List Nat} (h : foldChecked nbits op x before = .ok acc) (rest : List Nat) :
    foldChecked nbits op x (before ++ rest) = foldChecked nbits op acc rest := by
  rw [foldChecked_append, h]

/-- Settles O29: the step after a prefix is the first step of the fold from the prefix's value. -/
theorem foldsStopAtTheFirstFailingStep : Obligations.FoldsStopAtTheFirstFailingStep := by
  intro nbits op
  refine ⟨foldChecked_nil nbits op, rfl, fun _ _ => rfl, fun x y acc before after h => ?_⟩
  rw [foldChecked_append_of_ok h]
  exact ⟨fun _ => foldChecked_cons_error after, fun _ => foldChecked_cons_overflow after,
    fun _ => foldChecked_cons_ok after⟩

/-- A fold of lcm that was safe so far ends at a step that is lcm(0, 0). -/
theorem foldChecked_lcm_undefined {nbits x y : Nat} {before : List Nat} (after : List Nat)
    (hsafe : LcmSafe nbits x before) (hacc : before.foldl Nat.lcm x = 0) (hy : y = 0) :
    foldChecked nbits lcmChecked x (before ++ y :: after) = .error .lcmUndefined := by
  rw [foldChecked_append_of_ok (foldChecked_lcm_of_safe hsafe), hacc, hy]
  exact foldChecked_cons_error after lcmChecked_zero

/-- A value that does not fit is not 0, so its step is defined and overflows. -/
theorem foldChecked_lcm_overflow {nbits x y : Nat} {before : List Nat} (after : List Nat)
    (hsafe : LcmSafe nbits x before) (hbig : 2 ^ nbits ≤ Nat.lcm (before.foldl Nat.lcm x) y) :
    foldChecked nbits lcmChecked x (before ++ y :: after) = .error .overflow := by
  have hdef : ¬(before.foldl Nat.lcm x = 0 ∧ y = 0) := by
    rintro ⟨hacc, -⟩
    rw [hacc, Nat.lcm_zero_left] at hbig
    exact absurd (Nat.two_pow_pos nbits) (Nat.not_lt.2 hbig)
  rw [foldChecked_append_of_ok (foldChecked_lcm_of_safe hsafe)]
  exact foldChecked_cons_overflow after (lcmChecked_eq hdef) hbig

/-- A width that holds a factor, at least 2, is not 0. -/
theorem one_lt_two_pow_of_factors {nbits : Nat} {fs : List Nat} (hf : Factors fs)
    (hfit : ∀ f ∈ fs, f < 2 ^ nbits) : 1 < 2 ^ nbits := by
  obtain ⟨hne, htwo⟩ := hf
  obtain ⟨f, hmem⟩ := List.exists_mem_of_ne_nil fs hne
  exact (Nat.lt_of_succ_le (htwo f hmem)).trans (hfit f hmem)

theorem product_not_factors {nbits : Nat} {fs : List Nat} (h : ¬ Factors fs) :
    product nbits fs = .error .invalidInput := by
  rw [product, validate_not_factors h]

/-- R114 on validated factors. At width 0, where not even the initial 1 fits, the first factor overflows. -/
theorem product_eq {nbits : Nat} {fs : List Nat} (hf : Factors fs) :
    product nbits fs = if 2 ^ nbits ≤ fs.prod then .error .overflow else .ok fs.prod := by
  have hpos : ∀ f ∈ fs, 1 ≤ f := fun f hm => Nat.one_le_of_lt (hf.2 f hm)
  simp only [product, validate_factors hf]
  by_cases h1 : 1 < 2 ^ nbits
  · rw [foldChecked_mul hpos h1, Nat.one_mul]
  · obtain ⟨f, gs, rfl⟩ := List.exists_cons_of_ne_nil hf.1
    have hf1 : 1 ≤ f := hpos f List.mem_cons_self
    have hprod : 1 ≤ (f :: gs).prod := List.one_le_prod_of_one_le hpos
    rw [foldChecked_cons_overflow gs rfl (by omega), if_pos (by omega)]

/-- R112: no step makes the value smaller, so some step overflows exactly when the formula's value does. -/
theorem phi_eq {nbits : Nat} {m : Method} {fs : List Nat} (hm : m.code < 2) (hf : Factors fs)
    (hfit : ∀ f ∈ fs, f < 2 ^ nbits) :
    phi nbits m fs
      = if 2 ^ nbits ≤ totientValue m fs then .error .overflow else .ok (totientValue m fs) := by
  have hpos := pred_pos_of_factors hf
  cases m with
  | euler =>
    rw [phi, foldChecked_mul hpos (one_lt_two_pow_of_factors hf hfit), Nat.one_mul, totientValue]
  | carmichael =>
    obtain ⟨f, gs, rfl⟩ := List.exists_cons_of_ne_nil hf.1
    obtain ⟨hf1, hgs⟩ := List.forall_mem_cons.1 hpos
    have hlt : f - 1 < 2 ^ nbits := (Nat.sub_le f 1).trans_lt (hfit f List.mem_cons_self)
    rw [phi, totientValue, List.map_cons, List.foldl_cons, Nat.lcm_one_left]
    exact foldChecked_lcm hf1 hgs hlt
  | m2 | m3 => exact absurd hm (by decide)

theorem totientValue_pos {m : Method} {fs : List Nat} (hm : m.code < 2) (hf : Factors fs) :
    1 ≤ totientValue m fs := by
  have hpos := pred_pos_of_factors hf
  cases m with
  | euler => exact List.one_le_prod_of_one_le hpos
  | carmichael => exact foldl_lcm_pos le_rfl hpos
  | m2 | m3 => exact absurd hm (by decide)

theorem foldl_lcm_dvd_mul_prod (xs : List Nat) (x : Nat) : xs.foldl Nat.lcm x ∣ x * xs.prod := by
  induction xs generalizing x with
  | nil => exact Dvd.intro _ rfl
  | cons y xs ih =>
    rw [List.foldl_cons, List.prod_cons, ← Nat.mul_assoc]
    exact (ih _).trans (Nat.mul_dvd_mul_right (Nat.lcm_dvd_mul x y) _)

/-- Carmichael's value divides Euler's. -/
theorem totientValue_le_euler (m : Method) {fs : List Nat} (hf : Factors fs) :
    totientValue m fs ≤ totientValue .euler fs := by
  cases m with
  | euler => exact le_rfl
  | carmichael =>
    refine Nat.le_of_dvd (totientValue_pos (by decide) hf) ?_
    have h := foldl_lcm_dvd_mul_prod (fs.map (· - 1)) 1
    rwa [Nat.one_mul] at h
  | m2 | m3 => exact Nat.zero_le _

theorem totientValue_lt_prod (m : Method) {fs : List Nat} (hf : Factors fs) : totientValue m fs < fs.prod := by
  refine (totientValue_le_euler m hf).trans_lt ?_
  have hlt : (fs.map (· - 1)).prod < (fs.map id).prod :=
    List.prod_map_lt_prod_map hf.1 _ _ (fun f h => by have := hf.2 f h; omega)
      (fun f h => by have := hf.2 f h; simp only [id]; omega)
  rwa [List.map_id] at hlt

/-- Settles O30: the formula of the method, and its bounds by the product of the factors. -/
theorem totientIsTheFormula : Obligations.TotientIsTheFormula := by
  intro nbits m fs hf hfit hm
  rw [phi_eq hm hf hfit]
  exact ⟨fun hlt => if_neg (Nat.not_le.2 hlt), fun hbig => if_pos hbig, totientValue_pos hm hf,
    totientValue_lt_prod m hf⟩

end Sys2Proof.Proofs

/-! PROOF. The error order of the derivations: the totient (41_fold_derivation.md R115) and the private exponent
(R116, R117). -/

namespace Sys2Proof.Proofs

open Sys2Proof Sys2Proof.Machine Sys2Proof.Laws

/-- The two methods that R78 leaves unrecognised have the codes 2 and 3. -/
theorem unrecognised_iff_code (m : Method) : (m = .m2 ∨ m = .m3) ↔ m.code = 2 ∨ m.code = 3 := by
  cases m <;> decide

theorem recognised_of_code_lt {m : Method} (h : m.code < 2) : ¬(m = .m2 ∨ m = .m3) :=
  mt (unrecognised_iff_code m).1 (by omega)

theorem totient_invalidMethod (nbits : Nat) {m : Method} (fs : List Nat) (h : m.code = 2 ∨ m.code = 3) :
    totient nbits m fs = .error .invalidMethod :=
  if_pos ((unrecognised_iff_code m).2 h)

theorem totient_invalidInput (nbits : Nat) {m : Method} {fs : List Nat} (hm : m.code < 2) (hf : ¬ Factors fs) :
    totient nbits m fs = .error .invalidInput := by
  rw [totient, if_neg (recognised_of_code_lt hm), validate_not_factors hf]

theorem totient_eq_phi (nbits : Nat) {m : Method} {fs : List Nat} (hm : m.code < 2) (hf : Factors fs) :
    totient nbits m fs = phi nbits m fs := by
  rw [totient, if_neg (recognised_of_code_lt hm), validate_factors hf]

theorem totient_overflow {nbits : Nat} {m : Method} {fs : List Nat} (hm : m.code < 2) (hf : Factors fs)
    (hfit : ∀ f ∈ fs, f < 2 ^ nbits) (hbig : 2 ^ nbits ≤ totientValue m fs) :
    totient nbits m fs = .error .overflow := by
  rw [totient_eq_phi nbits hm hf, phi_eq hm hf hfit, if_pos hbig]

theorem totient_eq_totientValue {nbits : Nat} {m : Method} {fs : List Nat} (hm : m.code < 2) (hf : Factors fs)
    (hfit : ∀ f ∈ fs, f < 2 ^ nbits) (hlt : totientValue m fs < 2 ^ nbits) :
    totient nbits m fs = .ok (totientValue m fs) := by
  rw [totient_eq_phi nbits hm hf, phi_eq hm hf hfit, if_neg (Nat.not_le.2 hlt)]

theorem deriveExponent_invalidExponent {e : Nat} (φ : Nat) (he : e = 0) :
    deriveExponent e φ = .error .invalidExponent :=
  if_pos (Nat.lt_one_iff.2 he)

theorem deriveExponent_invalidInput {e φ : Nat} (he : e ≠ 0) (hφ : φ = 0) :
    deriveExponent e φ = .error .invalidInput := by
  rw [deriveExponent, if_neg (mt Nat.lt_one_iff.1 he), if_pos (Nat.lt_one_iff.2 hφ)]

/-- Past its two checks DERIVD is the inversion of MODINV (R116). -/
theorem deriveExponent_eq {e φ : Nat} (he : e ≠ 0) (hφ : φ ≠ 0) : deriveExponent e φ = inverseMod e φ := by
  rw [deriveExponent, if_neg (mt Nat.lt_one_iff.1 he), if_neg (mt Nat.lt_one_iff.1 hφ)]

theorem deriveFromFactors_invalidExponent (nbits : Nat) (m : Method) {e : Nat} (fs : List Nat) (he : e = 0) :
    deriveFromFactors nbits m e fs = .error .invalidExponent :=
  if_pos (Nat.lt_one_iff.2 he)

/-- The totient's error is DERIVDF's (R117). -/
theorem deriveFromFactors_error {nbits e : Nat} {m : Method} {fs : List Nat} {err : ErrCode} (he : e ≠ 0)
    (h : totient nbits m fs = .error err) : deriveFromFactors nbits m e fs = .error err := by
  rw [deriveFromFactors, if_neg (mt Nat.lt_one_iff.1 he), h]

/-- With a totient that is answered DERIVDF is the inversion of MODINV (R117). -/
theorem deriveFromFactors_ok {nbits e φ : Nat} {m : Method} {fs : List Nat} (he : e ≠ 0)
    (h : totient nbits m fs = .ok φ) : deriveFromFactors nbits m e fs = inverseMod e φ := by
  rw [deriveFromFactors, if_neg (mt Nat.lt_one_iff.1 he), h]

end Sys2Proof.Proofs

/-! PROOF. The commands over a factor range, LCMFOLD, PROD, PHI and DERIVDF, and DERIVD: their word
(30_encoding.md R71, R73), the common checks on a range (60_exceptions.md R144) and their own rules
(41_fold_derivation.md R113 – R117). -/

namespace Sys2Proof.Proofs

open Sys2Proof Sys2Proof.Machine Sys2Proof.Laws

/-- The word of a command whose fields are m, rd, ra and len. -/
theorem pack_range_toNat {op m : Nat} (hop : op < 64) (hm : m < 4) (rd ra : RegIdx) (len : Len) :
    (pack op m rd ra 0 0 len 0).toNat = op + 2 ^ 6 * m + 2 ^ 8 * rd.val + 2 ^ 12 * ra.val + 2 ^ 24 * len.val := by
  rw [pack_toNat rd ra 0 0 len hop hm (by decide)]
  simp [Nat.mul_comm]

theorem rangeFits_eq_true {start : RegIdx} {len : Len} (h : start.val + len.val ≤ 16) :
    rangeFits start len = true := decide_eq_true h

/-- IllegalCommand, for a command whose one constraint is R75 item 5. -/
theorem fails_illegal_range {i : Instr} {s : State} {snap : Snapshot} {start : RegIdx} {len : Len}
    (hb : s.engine = .busy snap) (hw : i.wellFormed = rangeFits start len) (h : 16 < start.val + len.val) :
    Fails i s .illegalCommand :=
  fails_illegal hb (hw.trans (decide_eq_false (Nat.not_le.2 h)))

/-- A command that reads a range and nothing else: its common checks, then what its own rule gives once they
pass (60_exceptions.md R144). -/
theorem rangeCommand_checks {i : Instr} {s : State} {snap : Snapshot} {start : RegIdx} {len : Len} {own : Prop}
    (hb : s.engine = .busy snap) (hw : i.wellFormed = rangeFits start len)
    (hn : numericRegs i = rangeRegs start len)
    (hown : i.wellFormed = true → readsSigned snap.regs i = false → own) :
    (16 < start.val + len.val → Fails i s .illegalCommand)
    ∧ (start.val + len.val ≤ 16 → RangeSigned snap.regs start len → Fails i s .signedOperand)
    ∧ (start.val + len.val ≤ 16 → ¬ RangeSigned snap.regs start len → own) := by
  have hwf (h : start.val + len.val ≤ 16) : i.wellFormed = true := hw.trans (rangeFits_eq_true h)
  refine ⟨fails_illegal_range hb hw, fun hfits hs => ?_, fun hfits hs => ?_⟩
  · exact fails_signed hb (hwf hfits) ((readsSigned_range hn).2 hs)
  · exact hown (hwf hfits) (Bool.eq_false_iff.2 (mt (readsSigned_range hn).1 hs))

/-- One operand and a range, the numbers DERIVDF reads. -/
theorem readsSigned_cons_range {regs : RegFile} {i : Instr} {ra start : RegIdx} {len : Len}
    (hn : numericRegs i = ra :: rangeRegs start len) :
    readsSigned regs i = true ↔ (regs.read ra).sign = true ∨ RangeSigned regs start len := by
  simp [readsSigned, hn, RangeSigned]

/-- A command whose own rule is one number to write fails with the number's error. -/
theorem fails_writeNat {i : Instr} {s : State} {snap : Snapshot} {rd : RegIdx} {r : Except ErrCode Nat}
    {e : ErrCode} (hb : s.engine = .busy snap) (hw : i.wellFormed = true)
    (hs : readsSigned snap.regs i = false) (ho : ownRule s.config.nbits i snap.regs = writeNat rd r)
    (hr : r = .error e) : Fails i s e :=
  fails_own hb hw hs (by rw [ho, hr, writeNat])

theorem writesOne_writeNat {i : Instr} {s : State} {snap : Snapshot} {rd : RegIdx} {r : Except ErrCode Nat}
    {v : Nat} (hb : s.engine = .busy snap) (hw : i.wellFormed = true)
    (hs : readsSigned snap.regs i = false) (ho : ownRule s.config.nbits i snap.regs = writeNat rd r)
    (hr : r = .ok v) : WritesOne i s rd ⟨v, false⟩ :=
  writesOne_own hb hw hs (by rw [ho, hr, writeNat, OpReg.ofNat])

theorem rangeNums_eq_nil (regs : RegFile) (start : RegIdx) {len : Len} (h : len.val = 0) :
    regs.rangeNums start len = [] :=
  List.eq_nil_of_length_eq_zero ((length_rangeNums regs start len).trans h)

/-- Settles O18: the fold starts from the first element, untested, and each of its steps is safe, lcm(0, 0)
or too large. -/
theorem lcmfoldFoldsTheRange : Obligations.LcmfoldFoldsTheRange := by
  intro rd ra len
  refine ⟨pack_range_toNat (by decide) (by decide) rd ra len,
    fun s cw regs hb => rangeCommand_checks hb rfl rfl fun hw hs => ?_⟩
  refine ⟨fun h0 => fails_writeNat hb hw hs rfl (by rw [rangeNums_eq_nil regs ra h0, fold1Checked]),
    fun x xs hx => ?_⟩
  have hfold : fold1Checked s.config.nbits lcmChecked (regs.rangeNums ra len)
      = foldChecked s.config.nbits lcmChecked x xs := by rw [hx, fold1Checked]
  refine ⟨fun hsafe => writesOne_writeNat hb hw hs rfl (hfold.trans (foldChecked_lcm_of_safe hsafe)), ?_⟩
  rintro before y after rfl hsafe
  refine ⟨fun ⟨hacc, hy⟩ => ?_, fun hbig => ?_⟩
  · exact fails_writeNat hb hw hs rfl (hfold.trans (foldChecked_lcm_undefined after hsafe hacc hy))
  · exact fails_writeNat hb hw hs rfl (hfold.trans (foldChecked_lcm_overflow after hsafe hbig))

/-- Settles O19: validation, then the product of the factors, whether it fits or not. -/
theorem prodWritesTheProduct : Obligations.ProdWritesTheProduct := by
  intro rd ra len
  refine ⟨pack_range_toNat (by decide) (by decide) rd ra len,
    fun s cw regs hb => rangeCommand_checks hb rfl rfl fun hw hs => ?_⟩
  rintro fs rfl
  refine ⟨fun hf => ?_, fun hf hbig => ?_, fun hf hlt => ?_⟩
  · exact fails_writeNat hb hw hs rfl (product_not_factors hf)
  · exact fails_writeNat hb hw hs rfl ((product_eq hf).trans (if_pos hbig))
  · exact writesOne_writeNat hb hw hs rfl ((product_eq hf).trans (if_neg (Nat.not_le.2 hlt)))

/-- Settles O20: the totient's errors in order, then its value. -/
theorem phiWritesTheTotient : Obligations.PhiWritesTheTotient := by
  intro m rd ra len
  refine ⟨pack_range_toNat (by decide) (method_code_lt m) rd ra len,
    fun s cw regs hb => rangeCommand_checks hb rfl rfl fun hw hs => ?_⟩
  rintro fs rfl hfit
  refine ⟨fun hm => ?_, fun hm hf => ?_, fun hm hf hbig => ?_, fun hm hf hlt => ?_⟩
  · exact fails_writeNat hb hw hs rfl (totient_invalidMethod _ _ hm)
  · exact fails_writeNat hb hw hs rfl (totient_invalidInput _ hm hf)
  · exact fails_writeNat hb hw hs rfl (totient_overflow hm hf hfit hbig)
  · exact writesOne_writeNat hb hw hs rfl (totient_eq_totientValue hm hf hfit hlt)

/-- Settles O21: two checks, then the inversion; φ is not 0 where it is reached. -/
theorem derivdWritesTheExponent : Obligations.DerivdWritesTheExponent := by
  intro rd ra rb
  refine ⟨pack_twoOperands_toNat (by decide) rd ra rb,
    fun s cw regs hb => ⟨fails_signed_two hb rfl rfl, fun ha hb' => ?_⟩⟩
  have hs : readsSigned regs (.derivd rd ra rb) = false := readsSigned_two_eq_false rfl ha hb'
  rintro e φ rfl rfl
  refine ⟨fun he => ?_, fun he hφ => ?_, fun he hφ hg => ?_,
    fun he hφ hg => ⟨_, isInverse_emod hφ hg, ?_⟩⟩
  · exact fails_writeNat hb rfl hs rfl (deriveExponent_invalidExponent _ he)
  · exact fails_writeNat hb rfl hs rfl (deriveExponent_invalidInput he hφ)
  · exact fails_writeNat hb rfl hs rfl ((deriveExponent_eq he hφ).trans (inverseMod_notCoprime hg))
  · exact writesOne_writeNat hb rfl hs rfl ((deriveExponent_eq he hφ).trans (inverseMod_coprime hg))

theorem encode_derivdf_toNat (m : Method) (rd ra rb : RegIdx) (len : Len) :
    (encode (.derivdf m rd ra rb len)).toNat
      = 0x20000008 + 2 ^ 6 * m.code + 2 ^ 8 * rd.val + 2 ^ 12 * ra.val + 2 ^ 16 * rb.val + 2 ^ 24 * len.val := by
  rw [encode, pack_toNat rd ra rb 0 len (by decide) (method_code_lt m) (by decide), Fin.val_zero]
  omega

/-- Settles O22: the checks in order; the totient is not 0, so an e coprime to it has an inverse. -/
theorem derivdfWritesTheExponent : Obligations.DerivdfWritesTheExponent := by
  intro m rd ra rb len
  refine ⟨encode_derivdf_toNat m rd ra rb len, fun s cw regs hb => ⟨fails_illegal_range hb rfl,
    fun hfits hs => fails_signed hb (rangeFits_eq_true hfits) ((readsSigned_cons_range rfl).2 hs),
    fun hfits hra hns => ?_⟩⟩
  have hw : (Instr.derivdf m rd ra rb len).wellFormed = true := rangeFits_eq_true hfits
  have hs : readsSigned regs (.derivdf m rd ra rb len) = false :=
    Bool.eq_false_iff.2 fun h =>
      ((readsSigned_cons_range rfl).1 h).elim (Bool.eq_false_iff.1 hra) hns
  rintro e fs rfl rfl hfit
  refine ⟨fun he => ?_, fun he hm => ?_, fun he hm hf => ?_, fun he hm hf hbig => ?_,
    fun he hm hf hlt hg => ?_,
    fun he hm hf hlt hg => ⟨_, isInverse_emod (Nat.ne_of_gt (totientValue_pos hm hf)) hg, ?_⟩⟩
  · exact fails_writeNat hb hw hs rfl (deriveFromFactors_invalidExponent _ m _ he)
  · exact fails_writeNat hb hw hs rfl (deriveFromFactors_error he (totient_invalidMethod _ _ hm))
  · exact fails_writeNat hb hw hs rfl (deriveFromFactors_error he (totient_invalidInput _ hm hf))
  · exact fails_writeNat hb hw hs rfl (deriveFromFactors_error he (totient_overflow hm hf hfit hbig))
  · exact fails_writeNat hb hw hs rfl
      ((deriveFromFactors_ok he (totient_eq_totientValue hm hf hfit hlt)).trans (inverseMod_notCoprime hg))
  · exact writesOne_writeNat hb hw hs rfl
      ((deriveFromFactors_ok he (totient_eq_totientValue hm hf hfit hlt)).trans (inverseMod_coprime hg))

end Sys2Proof.Proofs

/-! PROOF. Commands of a destination and three operands: their word (30_encoding.md R71, R73), the sign check
(60_exceptions.md R144), and MODEXP, MODMUL and MONTMUL (42_transform.md R120 – R122). -/

namespace Sys2Proof.Proofs

open Sys2Proof Sys2Proof.Machine Sys2Proof.Laws

/-- The word of a command whose fields are rd, ra, rb and rn. -/
theorem pack_threeOperands_toNat {op : Nat} (hop : op < 64) (rd ra rb rn : RegIdx) :
    (pack op 0 rd ra rb rn 0 0).toNat
      = op + 2 ^ 8 * rd.val + 2 ^ 12 * ra.val + 2 ^ 16 * rb.val + 2 ^ 20 * rn.val := by
  rw [pack_toNat rd ra rb rn 0 hop (by decide) (by decide)]
  simp [Nat.mul_comm]

theorem fails_signed_three {i : Instr} {s : State} {snap : Snapshot} {ra rb rn : RegIdx}
    (hb : s.engine = .busy snap) (hw : i.wellFormed = true) (hn : numericRegs i = [ra, rb, rn])
    (hs : (snap.regs.read ra).sign = true ∨ (snap.regs.read rb).sign = true ∨ (snap.regs.read rn).sign = true) :
    Fails i s .signedOperand :=
  fails_signed hb hw (by rw [readsSigned_three hn, Bool.or_eq_true, Bool.or_eq_true]; exact hs)

theorem readsSigned_three_eq_false {regs : RegFile} {i : Instr} {ra rb rn : RegIdx}
    (hn : numericRegs i = [ra, rb, rn]) (ha : (regs.read ra).sign = false) (hb : (regs.read rb).sign = false)
    (hm : (regs.read rn).sign = false) : readsSigned regs i = false := by
  rw [readsSigned_three hn, ha, hb, hm, Bool.or_false, Bool.or_false]

theorem modexpOwn_zeroModulus (rd ra rb : RegIdx) {rn : RegIdx} {regs : RegFile} (h : regs.num rn = 0) :
    modexpOwn rd ra rb rn regs = .error .zeroModulus :=
  if_pos h

theorem modexpOwn_ok (rd ra rb : RegIdx) {rn : RegIdx} {regs : RegFile} (h : regs.num rn ≠ 0) :
    modexpOwn rd ra rb rn regs = .ok [(rd, OpReg.ofNat (regs.num ra ^ regs.num rb % regs.num rn))] := by
  rw [modexpOwn, if_neg h, powMod_eq _ _ h]

/-- Settles O23: square-and-multiply answers the power. -/
theorem modexpWritesThePower : Obligations.ModexpWritesThePower := by
  intro rd ra rb rn
  refine ⟨pack_threeOperands_toNat (by decide) rd ra rb rn,
    fun s cw regs hb => ⟨fails_signed_three hb rfl rfl, fun ha hb' hn => ?_⟩⟩
  have hs : readsSigned regs (.modexp rd ra rb rn) = false := readsSigned_three_eq_false rfl ha hb' hn
  exact ⟨fun h0 => fails_own hb rfl hs (modexpOwn_zeroModulus rd ra rb h0),
    fun h0 => writesOne_own hb rfl hs (modexpOwn_ok rd ra rb h0)⟩

theorem modmulOwn_zeroModulus (rd ra rb : RegIdx) {rn : RegIdx} {regs : RegFile} (h : regs.num rn = 0) :
    modmulOwn rd ra rb rn regs = .error .zeroModulus :=
  if_pos h

theorem modmulOwn_ok (rd ra rb : RegIdx) {rn : RegIdx} {regs : RegFile} (h : regs.num rn ≠ 0) :
    modmulOwn rd ra rb rn regs = .ok [(rd, OpReg.ofNat (regs.num ra * regs.num rb % regs.num rn))] :=
  if_neg h

/-- Settles O24: the product is of natural numbers, which no width truncates. -/
theorem modmulWritesTheReducedProduct : Obligations.ModmulWritesTheReducedProduct := by
  intro rd ra rb rn
  refine ⟨pack_threeOperands_toNat (by decide) rd ra rb rn,
    fun s cw regs hb => ⟨fails_signed_three hb rfl rfl, fun ha hb' hn => ?_⟩⟩
  have hs : readsSigned regs (.modmul rd ra rb rn) = false := readsSigned_three_eq_false rfl ha hb' hn
  exact ⟨fun h0 => fails_own hb rfl hs (modmulOwn_zeroModulus rd ra rb h0),
    fun h0 => writesOne_own hb rfl hs (modmulOwn_ok rd ra rb h0)⟩

theorem montmulOwn_zeroModulus (nbits : Nat) (rd ra rb : RegIdx) {rn : RegIdx} {regs : RegFile}
    (h : regs.num rn = 0) : montmulOwn nbits rd ra rb rn regs = .error .zeroModulus :=
  if_pos h

theorem montmulOwn_evenModulus (nbits : Nat) (rd ra rb : RegIdx) {rn : RegIdx} {regs : RegFile}
    (h : regs.num rn ≠ 0) (heven : regs.num rn % 2 = 0) :
    montmulOwn nbits rd ra rb rn regs = .error .evenModulus := by
  rw [montmulOwn, if_neg h, if_pos heven]

theorem montmulOwn_ok (nbits : Nat) (rd ra rb : RegIdx) {rn : RegIdx} {regs : RegFile}
    (hodd : regs.num rn % 2 = 1) :
    montmulOwn nbits rd ra rb rn regs
      = .ok [(rd, OpReg.ofNat (regs.num ra * regs.num rb * montInv nbits (regs.num rn) % regs.num rn))] := by
  rw [montmulOwn, if_neg (by omega), if_neg (by omega)]

/-- What MONTMUL writes for an odd modulus (R122). -/
theorem writesOne_montmul {s : State} {snap : Snapshot} {ra rb rn : RegIdx} (rd : RegIdx)
    (hb : s.engine = .busy snap) (hs : readsSigned snap.regs (.montmul rd ra rb rn) = false)
    (hodd : (snap.regs.read rn).mag % 2 = 1) :
    WritesOne (.montmul rd ra rb rn) s rd
      ⟨(snap.regs.read ra).mag * (snap.regs.read rb).mag * montInv s.config.nbits (snap.regs.read rn).mag
        % (snap.regs.read rn).mag, false⟩ :=
  writesOne_own hb rfl hs (montmulOwn_ok _ rd ra rb hodd)

/-- Settles O25: the factor computed is the R⁻¹ of the rule, and there is no other. -/
theorem montmulWritesTheMontgomeryProduct : Obligations.MontmulWritesTheMontgomeryProduct := by
  intro rd ra rb rn
  refine ⟨pack_threeOperands_toNat (by decide) rd ra rb rn,
    fun s cw regs hb => ⟨fails_signed_three hb rfl rfl, fun ha hb' hn => ?_⟩⟩
  have hs : readsSigned regs (.montmul rd ra rb rn) = false := readsSigned_three_eq_false rfl ha hb' hn
  rintro n rfl
  refine ⟨fun h0 => ?_, fun h0 heven => ?_, fun hodd => ?_⟩
  · exact fails_own hb rfl hs (montmulOwn_zeroModulus _ rd ra rb h0)
  · exact fails_own hb rfl hs (montmulOwn_evenModulus _ rd ra rb h0 heven)
  · obtain ⟨hlt, hinv⟩ := montInv_spec s.config.nbits hodd
    exact ⟨_, ⟨hlt, hinv, writesOne_montmul rd hb hs hodd⟩,
      fun r ⟨hr, hr', _⟩ => montInv_unique s.config.nbits hodd hr hr'⟩

/-- R·R⁻¹ = 1 modulo an odd n. -/
theorem montInv_modEq (nbits : Nat) {n : Nat} (hodd : n % 2 = 1) : 2 ^ nbits * montInv nbits n ≡ 1 [MOD n] :=
  (montInv_spec nbits hodd).2

/-- Into Montgomery form: a·R²·R⁻¹ = a·R (R122). -/
theorem montgomery_in (nbits a : Nat) {n : Nat} (hodd : n % 2 = 1) :
    a * (2 ^ (2 * nbits) % n) * montInv nbits n % n = a * 2 ^ nbits % n :=
  calc a * (2 ^ (2 * nbits) % n) * montInv nbits n
      ≡ a * 2 ^ (2 * nbits) * montInv nbits n [MOD n] := ((Nat.mod_modEq _ _).mul_left a).mul_right _
    _ = a * 2 ^ nbits * (2 ^ nbits * montInv nbits n) := by rw [two_mul, pow_add]; ring
    _ ≡ a * 2 ^ nbits * 1 [MOD n] := (montInv_modEq nbits hodd).mul_left _
    _ = a * 2 ^ nbits := Nat.mul_one _

/-- Out of Montgomery form: (a·1·R⁻¹)·R = a (R122). -/
theorem montgomery_out (nbits a : Nat) {n : Nat} (hodd : n % 2 = 1) :
    a * 1 * montInv nbits n % n * 2 ^ nbits % n = a % n :=
  calc a * 1 * montInv nbits n % n * 2 ^ nbits
      ≡ a * 1 * montInv nbits n * 2 ^ nbits [MOD n] := (Nat.mod_modEq _ _).mul_right _
    _ = a * (2 ^ nbits * montInv nbits n) := by ring
    _ ≡ a * 1 [MOD n] := (montInv_modEq nbits hodd).mul_left _
    _ = a := Nat.mul_one _

/-- Settles O26, by the arithmetic of R⁻¹. -/
theorem montmulConvertsInAndOut : Obligations.MontmulConvertsInAndOut := by
  intro s cw regs rd ra rb rn hb ha hb' hn hodd
  have hs : readsSigned regs (.montmul rd ra rb rn) = false := readsSigned_three_eq_false rfl ha hb' hn
  have hwrites := writesOne_montmul rd hb hs hodd
  refine ⟨fun hrr => ?_, fun hone => ?_⟩
  · rwa [hrr, montgomery_in _ _ hodd] at hwrites
  · rw [hone] at hwrites
    exact ⟨_, Nat.mod_lt _ (by omega), montgomery_out _ _ hodd, hwrites⟩

end Sys2Proof.Proofs

/-! PROOF. The RSA round trip (42_transform.md R125): each p − 1 divides the totient, so Fermat's little theorem
gives the message back modulo each prime factor, and the factors are pairwise coprime. -/

namespace Sys2Proof.Proofs

open Sys2Proof Sys2Proof.Machine Sys2Proof.Laws

theorem init_dvd_foldl_lcm (xs : List Nat) (x : Nat) : x ∣ xs.foldl Nat.lcm x := by
  induction xs generalizing x with
  | nil => exact dvd_refl x
  | cons y xs ih => exact (Nat.dvd_lcm_left x y).trans (ih _)

theorem mem_dvd_foldl_lcm {xs : List Nat} {y : Nat} (x : Nat) (h : y ∈ xs) : y ∣ xs.foldl Nat.lcm x := by
  induction xs generalizing x with
  | nil => cases h
  | cons z xs ih =>
    rw [List.foldl_cons]
    rcases List.mem_cons.1 h with rfl | h
    · exact (Nat.dvd_lcm_right x y).trans (init_dvd_foldl_lcm xs _)
    · exact ih _ h

/-- By either formula the totient is a common multiple of the p − 1 (41_fold_derivation.md R112). -/
theorem pred_dvd_totientValue (m : Method) {fs : List Nat} {p : Nat} (hp : p ∈ fs) :
    p - 1 ∣ totientValue m fs := by
  have hmem : p - 1 ∈ fs.map (· - 1) := List.mem_map_of_mem hp
  cases m with
  | euler => exact List.dvd_prod hmem
  | carmichael => exact mem_dvd_foldl_lcm 1 hmem
  | m2 | m3 => exact dvd_zero _

/-- A totient that is answered is the formula's value (R115). -/
theorem eq_totientValue_of_totient {nbits φ : Nat} {m : Method} {fs : List Nat} (hfit : ∀ f ∈ fs, f < 2 ^ nbits)
    (h : totient nbits m fs = .ok φ) : φ = totientValue m fs := by
  obtain ⟨hf, hphi⟩ := totient_ok h
  by_cases hm : m.code < 2
  · rw [phi_eq hm hf hfit] at hphi
    split at hphi
    · cases hphi
    · exact (Except.ok.inj hphi).symm
  · have := method_code_lt m
    rw [totient_invalidMethod nbits fs (by omega)] at h
    cases h

/-- An inversion that is answered is the inverse (40_kernel.md R102). -/
theorem isInverse_of_inverseMod {a m d : Nat} (hm : m ≠ 0) (h : inverseMod a m = .ok d) : IsInverse a m d := by
  by_cases hg : Nat.gcd a m = 1
  · rw [inverseMod_coprime hg] at h
    obtain rfl := Except.ok.inj h
    exact isInverse_emod hm hg
  · rw [inverseMod_notCoprime hg] at h
    cases h

/-- An exponent that is answered inverts a positive e modulo the totient (R117). -/
theorem deriveFromFactors_eq_ok {nbits e d : Nat} {m : Method} {fs : List Nat}
    (h : deriveFromFactors nbits m e fs = .ok d) :
    e ≠ 0 ∧ ∃ φ, totient nbits m fs = .ok φ ∧ inverseMod e φ = .ok d := by
  by_cases he : e = 0
  · rw [deriveFromFactors_invalidExponent nbits m fs he] at h
    cases h
  · cases ht : totient nbits m fs with
    | error err => rw [deriveFromFactors_error he ht] at h; cases h
    | ok φ => exact ⟨he, φ, rfl, deriveFromFactors_ok he ht ▸ h⟩

/-- The derived exponent undoes e modulo every p − 1 (R112, R117). -/
theorem mul_modEq_one_of_deriveFromFactors {nbits e d : Nat} {m : Method} {fs : List Nat}
    (hfit : ∀ f ∈ fs, f < 2 ^ nbits) (h : deriveFromFactors nbits m e fs = .ok d) {p : Nat} (hp : p ∈ fs) :
    e * d ≡ 1 [MOD p - 1] := by
  obtain ⟨-, φ, ht, hinv⟩ := deriveFromFactors_eq_ok h
  obtain ⟨hf, hphi⟩ := totient_ok ht
  have hφ : φ ≠ 0 := Nat.ne_of_gt (phi_pos_lt hf hfit hphi).1
  obtain ⟨-, -, hed⟩ := isInverse_of_inverseMod hφ hinv
  obtain rfl := eq_totientValue_of_totient hfit ht
  exact Nat.ModEq.of_dvd (pred_dvd_totientValue m hp) hed

/-- The factors of a product that fits fit. -/
theorem factor_lt_of_prod_lt {fs : List Nat} {b : Nat} (hf : Factors fs) (h : fs.prod < b) :
    ∀ f ∈ fs, f < b := fun f hmem =>
  (Nat.le_of_dvd (List.prod_pos fun g hg => by have := hf.2 g hg; omega) (List.dvd_prod hmem)).trans_lt h

/-- Fermat's little theorem for distinct primes at once: an exponent k ≥ 1 that is 1 modulo every p − 1 changes
nothing modulo their product. -/
theorem pow_modEq_self {fs : List Nat} {k : Nat} (x : Nat) (hp : ∀ p ∈ fs, p.Prime) (hnd : fs.Nodup)
    (hk : 1 ≤ k) (h : ∀ p ∈ fs, k ≡ 1 [MOD p - 1]) : x ^ k ≡ x [MOD fs.prod] := by
  have hco : fs.Pairwise Nat.Coprime := hnd.pairwise_of_forall_ne fun p hpm q hqm hne =>
    (Nat.coprime_primes (hp p hpm) (hp q hqm)).2 hne
  refine (Nat.modEq_list_prod_iff hco).2 fun j => ?_
  have hmem : fs.get j ∈ fs := List.get_mem fs j
  have hdvd : fs.get j - 1 ∣ k - 1 := (Nat.modEq_iff_dvd' hk).1 (h _ hmem).symm
  rw [← Int.natCast_modEq_iff]
  push_cast
  simpa only [pow_one] using Int.ModEq.pow_eq_pow (hp _ hmem) hdvd hk one_pos (x : Int)

/-- Distinct factors with each p − 1 dividing 1 are the one list [2]. -/
theorem eq_singleton_two {fs : List Nat} (hf : Factors fs) (hnd : fs.Nodup) (h : ∀ p ∈ fs, p - 1 ∣ 1) :
    fs = [2] := by
  have htwo : ∀ p ∈ fs, p = 2 := fun p hp => by
    have := Nat.dvd_one.1 (h p hp)
    omega
  have hrep : fs = List.replicate fs.length 2 := List.eq_replicate_of_mem htwo
  have hlen : fs.length ≤ 1 := List.nodup_replicate.1 (hrep ▸ hnd)
  have hpos : 0 < fs.length := List.length_pos_of_ne_nil hf.1
  rw [hrep, show fs.length = 1 by omega, List.replicate_one]

/-- Encrypting and decrypting is one power (42_transform.md R120). -/
theorem powMod_powMod (x e d : Nat) {n : Nat} (hn : n ≠ 0) : powMod (powMod x e n) d n = x ^ (e * d) % n := by
  rw [powMod_eq _ _ hn, powMod_eq _ _ hn, ← Nat.pow_mod, pow_mul]

/-- The spec's rule as written fails at the list [2] and message 0 (log 27). -/
theorem roundTrip_two_zero :
    deriveFromFactors 64 .euler 1 [2] = .ok 0 ∧ product 64 [2] = .ok 2 ∧ powMod (powMod 0 1 2) 0 2 = 1 := by
  decide

/-- Settles O31: e·d ≥ 1 but under the list [2], whose message that is not 0 is 1. -/
theorem rsaRoundTrip : Obligations.RsaRoundTrip := by
  refine ⟨fun nbits m fs e n d msg hp hnd hspecial hn hd hmsg => ?_, roundTrip_two_zero⟩
  obtain ⟨hf, rfl, hlt⟩ := product_ok hn
  have hed : ∀ p ∈ fs, e * d ≡ 1 [MOD p - 1] := fun p =>
    mul_modEq_one_of_deriveFromFactors (factor_lt_of_prod_lt hf hlt) hd
  rw [powMod_powMod msg e d (Nat.ne_zero_of_lt hmsg)]
  rcases Nat.eq_zero_or_pos (e * d) with h0 | hpos
  · have htwo : fs = [2] := eq_singleton_two hf hnd fun p hpm =>
      (Nat.modEq_iff_dvd' (Nat.zero_le 1)).1 (h0 ▸ hed p hpm)
    have hone : msg = 1 := by
      have := hspecial.resolve_left (not_not.2 htwo)
      rw [htwo, List.prod_singleton] at hmsg
      omega
    rw [hone, one_pow]
    exact Nat.mod_eq_of_lt (hone ▸ hmsg)
  · exact Eq.trans (pow_modEq_self msg hp hnd hpos hed) (Nat.mod_eq_of_lt hmsg)

end Sys2Proof.Proofs

/-! PROOF. The host's driver of a command sequence (42_transform.md R124). -/

namespace Sys2Proof.Proofs

open Sys2Proof Sys2Proof.Machine Sys2Proof.Laws

/-- After a command that succeeded the driver goes on. -/
theorem runSequence_cons_of_code_none {i : Instr} {s u : State} (rest : List Instr)
    (h : issueAndWait i s = .next u) (hc : u.code = none) : runSequence (i :: rest) s = runSequence rest u := by
  rw [runSequence, h]
  simp only [hc]

/-- What a sequence that ends has done with its first command: gone on after a success, or reported its error. -/
theorem runSequence_cons_next {i : Instr} {rest : List Instr} {s t : State} {c : Option ErrCode}
    (h : runSequence (i :: rest) s = .next (t, c)) :
    ∃ u, issueAndWait i s = .next u
      ∧ (u.code = none ∧ runSequence rest u = .next (t, c) ∨ ∃ e, u.code = some e ∧ c = some e ∧ t = u) := by
  rw [runSequence] at h
  split at h
  · next u hu =>
    refine ⟨u, hu, ?_⟩
    split at h
    · next hc => exact .inl ⟨hc, h⟩
    · next e hc =>
      cases h
      exact .inr ⟨e, hc, rfl, rfl⟩
  · cases h
  · cases h

/-- Settles O58, by induction on the commands still to be issued. -/
theorem hostSequenceStopsAtTheFirstError : Obligations.HostSequenceStopsAtTheFirstError := by
  intro cmds s t e h
  induction cmds generalizing s with
  | nil => cases h
  | cons i rest ih =>
    obtain ⟨u, hu, ⟨hc, hrest⟩ | ⟨e', hc, he, rfl⟩⟩ := runSequence_cons_next h
    · obtain ⟨hcode, before, j, after, v, rfl, hbefore, hj⟩ := ih u hrest
      exact ⟨hcode, i :: before, j, after, v, rfl,
        (runSequence_cons_of_code_none before hu hc).trans hbefore, hj⟩
    · exact ⟨hc.trans he.symm, [], i, rest, s, rfl, rfl, hu⟩

end Sys2Proof.Proofs

/-! PROOF. The engine control commands: NOP's one word (30_encoding.md R75; 43_engine_control.md R130) and MOV's
raw copy (R131). -/

namespace Sys2Proof.Proofs

open Sys2Proof Sys2Proof.Machine Sys2Proof.Laws

/-- Opcode 0 is NOP's alone (30_encoding.md R73). -/
theorem eq_nop_of_opcode_zero {i : Instr} (h : bits (encode i).toNat 5 0 = 0) : i = .nop := by
  rw [(bits_eq_fields _).1] at h
  cases i with
  | nop => rfl
  | _ => simp [encode, fieldsOf_pack, method_code_lt] at h

/-- A word of opcode 0 with another bit set decodes to no command: the command would be NOP, whose word is 0. -/
theorem decode_error_of_opcode_zero {w : Word} (hop : bits w.toNat 5 0 = 0) (hw : w ≠ 0) :
    ∃ e, decode w = .error e := by
  cases hd : decode w with
  | error e => exact ⟨e, rfl⟩
  | ok i =>
    obtain ⟨-, rfl⟩ := encode_of_decode hd
    obtain rfl := eq_nop_of_opcode_zero hop
    exact absurd rfl hw

/-- Settles O13: no word but 0 decodes to NOP, whose own rule asks for no write. -/
theorem nopCompletesAndWritesNothing : Obligations.NopCompletesAndWritesNothing := by
  refine ⟨rfl, fun w s regs hop hw hb => ?_, fun s snap hb => ?_⟩
  · obtain ⟨e, he⟩ := decode_error_of_opcode_zero hop hw
    exact ⟨_, engineStep_error hb he, failedWith_completeErr s _⟩
  · exact ⟨_, exec_own_ok hb rfl rfl rfl, completed_completeOk s [], rfl⟩

/-- The word of MOV: its opcode and its two registers (30_encoding.md R71, R73). -/
theorem encode_mov_toNat (rd ra : RegIdx) :
    (encode (.mov rd ra)).toNat = 0x01 + 2 ^ 8 * rd.val + 2 ^ 12 * ra.val :=
  pack_twoOperands_toNat (by decide) rd ra 0

/-- Settles O14: MOV reads no number, so no check stands before the copy (60_exceptions.md R144). -/
theorem movCopiesMagnitudeAndSign : Obligations.MovCopiesMagnitudeAndSign := by
  intro rd ra
  refine ⟨encode_mov_toNat rd ra, fun s cw regs hb => ?_⟩
  have hs : readsSigned regs (.mov rd ra) = false := rfl
  exact writesOne_own hb rfl hs rfl

end Sys2Proof.Proofs

/-! PROOF. A command's outcome (60_exceptions.md R140 – R146): the common checks before its own, the one completion
with its frame, what the outcome depends on, and its number. -/

namespace Sys2Proof.Proofs

open Sys2Proof Sys2Proof.Machine Sys2Proof.Laws

/-- Settles O12, by the list of registers a command reads as numbers. -/
theorem commonChecksComeFirst : Obligations.CommonChecksComeFirst := by
  intro s cw regs hb
  refine ⟨fun i => fails_illegal hb, fun rd ra rb hs => ?_, fun rd ra rb rn hs => ?_, fun m rd ra len hfits hs => ?_,
    fun m rd ra rb len hfits hs => ?_⟩
  · have two {i : Instr} (hw : i.wellFormed = true) (hn : numericRegs i = [ra, rb]) : Fails i s .signedOperand :=
      fails_signed_two hb hw hn hs
    exact ⟨fun hrd => two (decide_eq_true hrd) rfl, two rfl rfl, two rfl rfl, two rfl rfl⟩
  · have three {i : Instr} (hw : i.wellFormed = true) (hn : numericRegs i = [ra, rb, rn]) :
        Fails i s .signedOperand := fails_signed_three hb hw hn hs
    exact ⟨three rfl rfl, three rfl rfl, three rfl rfl⟩
  · have range {i : Instr} (hw : i.wellFormed = rangeFits ra len) (hn : numericRegs i = rangeRegs ra len) :
        Fails i s .signedOperand :=
      fails_signed hb (hw.trans (rangeFits_eq_true hfits)) ((readsSigned_range hn).2 hs)
    exact ⟨range rfl rfl, range rfl rfl, range rfl rfl⟩
  · exact fails_signed hb (rangeFits_eq_true hfits) ((readsSigned_cons_range rfl).2 hs)

/-- Settles O32: `Ok` writes what the own rule asks for, and that names destinations alone. -/
theorem everyCommandCompletes : Obligations.EveryCommandCompletes := by
  intro i s snap hb
  refine ⟨_, exec_busy i hb, ?_⟩
  cases hres : cmdResult i (ownRule s.config.nbits i) snap.regs with
  | ok ws =>
    obtain ⟨-, -, hown⟩ := cmdResult_ok hres
    exact .inl ⟨completed_completeOk s ws, fun k hk => not_imp_comm.1 (mem_destRegs_of_changed hown) hk⟩
  | error e => exact .inr ⟨e, failedWith_completeErr s e⟩

/-- The outcome of a captured word, from the snapshot and the width alone (60_exceptions.md R146). -/
def snapshotResult (nbits : Nat) (snap : Snapshot) : CmdResult :=
  match decode snap.cw with
  | .ok i => cmdResult i (ownRule nbits i) snap.regs
  | .error _ => .error .illegalCommand

/-- The engine's turn while BUSY is the completion with that outcome, for every word. -/
theorem engineStep_busy {s : State} {snap : Snapshot} (hb : s.engine = .busy snap) :
    engineStep s = .next (s.complete (snapshotResult s.config.nbits snap)) := by
  unfold snapshotResult
  cases hd : decode snap.cw with
  | ok i => exact (engineStep_ok hb hd).trans (exec_busy i hb)
  | error e => exact engineStep_error hb hd

/-- An `Ok` outcome writes each destination register of the command. -/
theorem exists_write_of_mem_destRegs {nbits : Nat} {snap : Snapshot} {i : Instr} {ws : List Write} {k : RegIdx}
    (hd : decode snap.cw = .ok i) (h : snapshotResult nbits snap = .ok ws) (hk : k ∈ destRegs i) :
    ∃ w ∈ ws, w.1 = k := by
  unfold snapshotResult at h
  rw [hd] at h
  obtain ⟨-, -, hown⟩ := cmdResult_ok h
  exact List.mem_map.1 (ownRule_dests hown ▸ hk)

/-- Settles O33: both turns complete with the one outcome of the snapshot, whose writes cover the destinations. -/
theorem outcomeDependsOnSnapshotAndWidth : Obligations.OutcomeDependsOnSnapshotAndWidth := by
  intro s₁ s₂ t₁ t₂ snap hb₁ hb₂ hn hs₁ hs₂
  have hwidth : s₁.config.nbits = s₂.config.nbits := congrArg (32 * ·) hn
  obtain rfl := Host.Outcome.next.inj (hs₁.symm.trans (engineStep_busy hb₁))
  obtain rfl := Host.Outcome.next.inj (hs₂.symm.trans (engineStep_busy hb₂))
  rw [hwidth]
  cases hres : snapshotResult s₂.config.nbits snap with
  | ok ws =>
    exact ⟨rfl, fun _ i hd k hk => read_applyWrites_congr ws _ _ k (exists_write_of_mem_destRegs hd hres hk)⟩
  | error e => exact ⟨rfl, nofun⟩

theorem codeNumber_le (c : Option ErrCode) : codeNumber c ≤ 11 := by
  cases c with
  | none => decide
  | some e => cases e <;> decide

/-- Settles O35: the table, and no number above its last. -/
theorem errorCodesAreTheTable : Obligations.ErrorCodesAreTheTable := by
  refine ⟨rfl, rfl, rfl, rfl, rfl, rfl, rfl, rfl, rfl, rfl, rfl, rfl, fun s => ?_⟩
  rw [State.errcodeWord, BitVec.toNat_ofNat]
  exact (Nat.mod_le _ _).trans (codeNumber_le s.code)

end Sys2Proof.Proofs

/-! PROOF. Turns that change nothing or stop the run: the engine's turn while IDLE (60_exceptions.md R156), BUSERR and
the accesses outside the block (R147), and the turns that always go on (R151). -/

namespace Sys2Proof.Proofs

open Sys2Proof Sys2Proof.Machine Sys2Proof.Laws

/-- Settles O10: with the turn listed or not, the engine's turn of an IDLE engine is the identity. -/
theorem idleEngineChangesNothing : Obligations.IdleEngineChangesNothing := by
  intro s hidle
  refine ⟨fun ha => ?_, fun rest ha => ?_⟩
  · rw [step_nil ha, engineStep_idle hidle]
  · rw [step_engine ha]
    exact engineStep_idle hidle

/-- The CSRs stand at aligned offsets below 0x01C (20_memory.md R46). -/
theorem csrOffset_aligned_le (c : Csr) : c.offset % 4 = 0 ∧ c.offset ≤ 0x018 := by cases c <;> decide

/-- The offsets that answer nothing: misaligned, reserved, and the words from NWORDS on (20_memory.md R47, R48,
R50). -/
theorem targetOf_eq_none {nwords off : Nat}
    (h : off % 4 ≠ 0 ∨ (0x01C ≤ off ∧ off < 0x1000) ∨ 0x5000 ≤ off
      ∨ ∃ k i : Nat, k < 16 ∧ nwords ≤ i ∧ i < 256 ∧ off = 0x1000 + 0x400 * k + 4 * i) :
    targetOf nwords off = none := by
  refine Option.eq_none_iff_forall_ne_some.2 fun t ht => ?_
  rcases targetOf_some ht with ⟨c, -, hoff⟩ | ⟨k, i, -, hi, h256, hoff⟩
  · obtain ⟨haligned, hle⟩ := csrOffset_aligned_le c
    omega
  · have hk : k.val < 16 := k.isLt
    unfold windowOffset at hoff
    omega

theorem step_busErr {s : State} {rest : List Turn} {width : Width} {off : Nat} {op : BusOp} {onErr : OnBusErr}
    (hlt : off < 0x8000) (hnone : width ≠ .w32 ∨ targetOf s.config.nwords off = none)
    (ha : s.agenda = .host ⟨width, s.config.base + off, op⟩ onErr :: rest) :
    step s = if onErr = .traps then .fault (.hostBusError ⟨width, s.config.base + off, op⟩)
      else .next (s.answered rest .busErr) := by
  rw [step_host ha]
  refine (hostStep_inBlock { s with agenda := rest } width op onErr hlt).trans ?_
  rw [busAccess_busErr (s := { s with agenda := rest }) hnone]
  simp only [true_and, State.answered]

/-- Settles O45: a wrong width or an offset with no target gets BUSERR, and the host does as its turn says. -/
theorem busErrorChangesNothing : Obligations.BusErrorChangesNothing := by
  intro s rest width off op hlt h
  have hnone : width ≠ .w32 ∨ targetOf s.config.nwords off = none := h.imp_right targetOf_eq_none
  exact ⟨step_busErr hlt hnone, step_busErr hlt hnone⟩

theorem blockOffset_eq_none {c : Config} {addr : Nat} (h : addr < c.base ∨ c.base + 0x8000 ≤ addr) :
    blockOffset c addr = none :=
  if_neg (by simp only [blockSize]; omega)

theorem hostStep_outsideBlock {a : Access} {s : State} (onErr : OnBusErr) (h : blockOffset s.config a.addr = none) :
    hostStep a onErr s = .fault (.outsideBlock a) := by
  unfold hostStep
  rw [h]

/-- Settles O46: no offset of the block is addressed. -/
theorem accessOutsideTheBlockIsAHostFault : Obligations.AccessOutsideTheBlockIsAHostFault := by
  intro s a onErr rest ha h
  rw [step_host ha]
  exact hostStep_outsideBlock (s := { s with agenda := rest }) onErr (blockOffset_eq_none h)

theorem busAccess_ne_busErr {s : State} {off : Nat} {t : Target} (op : BusOp)
    (h : targetOf s.config.nwords off = some t) : (s.busAccess .w32 off op).2 ≠ .busErr := by
  cases op with
  | read => rw [busAccess_read h]; exact nofun
  | write w => rw [busAccess_write w h]; exact nofun

theorem exists_offset_of_harmless {c : Config} {a : Access} {onErr : OnBusErr}
    (h : (Turn.host a onErr).Harmless c) : ∃ off, off < 0x8000 ∧ a.addr = c.base + off := by
  have hin : c.base ≤ a.addr ∧ a.addr < c.base + 0x8000 := by
    rcases h with ⟨-, hlo, hhi, -⟩ | ⟨-, hlo, hhi⟩ <;> exact ⟨hlo, hhi⟩
  exact ⟨a.addr - c.base, by omega, by omega⟩

/-- A harmless host turn goes on: either it gets no BUSERR, or its host does not trap on it. -/
theorem exists_hostStep_of_harmless {a : Access} {onErr : OnBusErr} {s : State}
    (h : (Turn.host a onErr).Harmless s.config) : ∃ t, hostStep a onErr s = .next t := by
  obtain ⟨off, hlt, haddr⟩ := exists_offset_of_harmless h
  obtain ⟨width, addr, op⟩ := a
  obtain rfl : addr = s.config.base + off := haddr
  rw [hostStep_inBlock s width op onErr hlt, if_neg]
  · exact ⟨_, rfl⟩
  · rintro ⟨hresp, rfl⟩
    rcases h with ⟨hwidth, -, -, hmap⟩ | ⟨hignores, -⟩
    · obtain rfl : width = .w32 := hwidth
      obtain ⟨t, ht⟩ := Option.isSome_iff_exists.1 hmap
      rw [Nat.add_sub_cancel_left] at ht
      exact busAccess_ne_busErr op ht hresp
    · cases hignores

theorem exists_engineStep (s : State) : ∃ t, engineStep s = .next t := by
  cases he : s.engine with
  | idle => exact ⟨s, engineStep_idle he⟩
  | busy snap => exact ⟨_, engineStep_busy he⟩

/-- Settles O57, by whose turn is next. -/
theorem harmlessTurnsNeverStop : Obligations.HarmlessTurnsNeverStop := by
  intro s h
  cases ha : s.agenda with
  | nil =>
    rw [step_nil ha]
    exact exists_engineStep s
  | cons turn rest =>
    have hturn : turn.Harmless s.config := h turn (by rw [ha]; rfl)
    cases turn with
    | engine =>
      rw [step_engine ha]
      exact exists_engineStep _
    | hardReset => exact ⟨_, step_hardReset ha⟩
    | host a onErr =>
      rw [step_host ha]
      exact exists_hostStep_of_harmless (s := { s with agenda := rest }) hturn

end Sys2Proof.Proofs

/-! PROOF. The hardware reset (70_reset_and_hazards.md R170, R172) and the completion of an accepted command
(R180): a step uses up one turn, so a running command outlives at most the turns listed before the engine's. -/

namespace Sys2Proof.Proofs

open Sys2Proof Sys2Proof.Machine Sys2Proof.Laws

/-- A reset draws a word of its own for each word of each operand register, in order (70_reset_and_hazards.md
R170, log 4). -/
theorem magWord_resetAll (s : State) (k : RegIdx) {i : Nat} (hi : i < s.config.nwords) :
    magWord (s.resetAll.regs.read k).mag i = Config.freeWord (s.draws + k.val * s.config.nwords + i) := by
  rw [resetAll_regs, read_drawRegs]
  exact magWord_drawMag _ _ _ hi

/-- Settles O49: the step is the shared reset, whatever the phase. -/
theorem hardResetResetsEverything : Obligations.HardResetResetsEverything := by
  intro s rest ha
  exact ⟨_, step_hardReset ha, isReset_resetAll _, resetAll_config _, resetAll_agenda _,
    fun k _ hi => magWord_resetAll { s with agenda := rest } k hi⟩

theorem engineStep_agenda {s t : State} (h : engineStep s = .next t) : t.agenda = s.agenda := by
  rcases engineStep_cases s with ⟨-, ht⟩ | ⟨_, -, ⟨_, _, -, -, ht⟩ | ⟨_, ht⟩⟩ <;>
    obtain rfl := Host.Outcome.next.inj (h.symm.trans ht)
  · rfl
  · exact completeOk_agenda ..
  · exact completeErr_agenda ..

theorem hostStep_agenda {a : Access} {onErr : OnBusErr} {s t : State} (h : hostStep a onErr s = .next t) :
    t.agenda = s.agenda := by
  rcases hostStep_effect h with ⟨resp, n, rfl⟩ | ⟨off, w, tgt, -, -, rfl⟩
  · rfl
  · exact writeTarget_agenda s w tgt

/-- A step uses up the turn it takes and no other (log 6). -/
theorem step_agenda {s t : State} (h : step s = .next t) : t.agenda = s.agenda.tail := by
  rcases step_cases h with ⟨ha, he⟩ | ⟨rest, ha, he⟩ | ⟨rest, ha, rfl⟩ | ⟨a, onErr, rest, ha, hh⟩
  · rw [engineStep_agenda he, ha, List.tail_nil]
  · rw [engineStep_agenda he, ha, List.tail_cons]
  · rw [resetAll_agenda, ha, List.tail_cons]
  · rw [hostStep_agenda hh, ha, List.tail_cons]

/-- A turn that is no reset lets the running command run on, or it is the engine's and ends the command
(70_reset_and_hazards.md R172). -/
theorem busy_or_completed_of_step {s t : State} {snap : Snapshot} (hb : s.engine = .busy snap)
    (hreset : ∀ x ∈ s.agenda, ¬ x.Resets s.config) (h : step s = .next t) :
    t.engine = .busy snap ∨ (t.engine = .idle ∧ t.done = true) := by
  rcases runningCommandCannotBeChanged s t snap hb h with ⟨hkept, -, -⟩ | ⟨-, hends⟩ | ⟨⟨x, rest, ha, hx⟩, -⟩
  · exact .inl hkept
  · exact .inr hends
  · exact absurd hx (hreset x (by rw [ha]; exact List.mem_cons_self))

/-- Settles O56, by induction on the turns listed: each is used up by a step that ends the command or leaves it
running under the same configuration, and once none is left the engine's turn ends it. -/
theorem acceptedCommandCompletes : Obligations.AcceptedCommandCompletes := by
  intro s snap hb hturns
  induction hl : s.agenda generalizing s with
  | nil =>
    obtain ⟨t, ht⟩ := exists_engineStep s
    exact ⟨1, t, by simp, run_next 0 ((step_nil hl).trans ht), engineStep_ends hb ht⟩
  | cons turn rest ih =>
    obtain ⟨t, ht⟩ := harmlessTurnsNeverStop s fun x hx => (hturns x (List.mem_of_mem_head? hx)).1
    rcases busy_or_completed_of_step hb (fun x hx => (hturns x hx).2) ht with hbusy | hends
    · have hagenda : t.agenda = rest := by rw [step_agenda ht, hl, List.tail_cons]
      have hrest : ∀ x ∈ t.agenda, x.Harmless t.config ∧ ¬ x.Resets t.config := by
        rw [hagenda, configurationNeverChanges s t ht]
        exact fun x hx => hturns x (hl ▸ List.mem_cons_of_mem turn hx)
      obtain ⟨n, u, hn, hrun, hends⟩ := ih t hbusy hrest hagenda
      exact ⟨n + 1, u, Nat.succ_le_succ hn, (run_next n ht).trans hrun, hends⟩
    · exact ⟨1, t, by simp, run_next 0 ht, hends⟩

end Sys2Proof.Proofs
